-- ==== Sys2Proof/Word.lean ====
section
/-!
DEFINITION. The word of the machine is one memory cell, `CELL` of spec/00_scope.md R5: a mathematical
integer, written `Int` throughout. The spec forbids bytes (R36), so a cell is no bit vector. An
address is a natural number without an upper end (R31), written `Nat`. Beside them stand the small
alphabets of the encoding: parameter modes, parameters and the ten opcode classes
(spec/30_encoding.md R54, R56).
-/
namespace Sys2Proof

/-- The three parameter modes of R54. -/
inductive Mode where
  /-- mode 0: the parameter is an absolute address. -/
  | position
  /-- mode 1: the parameter is the operand itself. -/
  | immediate
  /-- mode 2: the parameter is an offset added to `rb`. -/
  | relative
deriving DecidableEq, Repr

/-- A parameter of an instruction: the mode its digit of the opcode cell gives it (R53) and its
own cell, a whole integer (R58). -/
structure Param where
  mode : Mode
  value : Int
deriving DecidableEq, Repr

/-- The ten opcode classes of R56, "fixed and exhaustive". -/
inductive OpClass where
  | add
  | mul
  | inp
  | out
  | jt
  | jf
  | lt
  | eq
  | arb
  | halt
deriving DecidableEq, Repr

end Sys2Proof
end

