-- ==== Sys2Proof/Syntax.lean ====
section
/-!
DEFINITION. The instructions: one constructor per row of spec/opcode_table.json. A parameter
carries its mode and its own cell; the last parameter of ADD, MUL, LT, EQ and the one of IN are
destinations (spec/30_encoding.md R56, R57).
-/
namespace Sys2Proof

/-- What one fetched opcode cell and its parameter cells stand for. -/
inductive Instr where
  /-- ADD, class 1 (R90). -/
  | add (p1 p2 p3 : Param)
  /-- MUL, class 2 (R91). -/
  | mul (p1 p2 p3 : Param)
  /-- IN, class 3 (R100); the parameter is the destination. -/
  | inp (p1 : Param)
  /-- OUT, class 4 (R101). -/
  | out (p1 : Param)
  /-- JT, class 5 (R110). -/
  | jt (p1 p2 : Param)
  /-- JF, class 6 (R111). -/
  | jf (p1 p2 : Param)
  /-- LT, class 7 (R95). -/
  | lt (p1 p2 p3 : Param)
  /-- EQ, class 8 (R96). -/
  | eq (p1 p2 p3 : Param)
  /-- ARB, class 9 (R115). -/
  | arb (p1 : Param)
  /-- HALT, class 99 (R116). -/
  | halt
  /-- The table's default row: a non-negative cell of no known class (R60, R117). -/
  | unknown (raw : Int)
  /-- The table's pre-decode row: a negative opcode cell (R63). -/
  | negative (raw : Int)
deriving DecidableEq, Repr

end Sys2Proof
end

