-- ==== Sys2Proof/WellFormed.lean ====
section
/-!
DEFINITION. Which terms of `Instr` stand for cells: a destination is never immediate
(spec/30_encoding.md R62), an unknown cell is non-negative and of no known class (R60), a
negative cell is negative (R63).
-/
namespace Sys2Proof

/-- R54, R62: the modes a destination parameter may have. -/
def Param.isDest (p : Param) : Bool := decide (p.mode ≠ .immediate)

/-- The class numbers of R56. -/
def knownClasses : List Nat := [1, 2, 3, 4, 5, 6, 7, 8, 9, 99]

/-- The well-formed instructions: those some sequence of cells decodes to. -/
def Instr.wf : Instr → Bool
  | .add _ _ p3 => p3.isDest
  | .mul _ _ p3 => p3.isDest
  | .inp p1 => p1.isDest
  | .out _ => true
  | .jt _ _ => true
  | .jf _ _ => true
  | .lt _ _ p3 => p3.isDest
  | .eq _ _ p3 => p3.isDest
  | .arb _ => true
  | .halt => true
  | .unknown raw => decide (0 ≤ raw) && !(knownClasses.contains (raw.toNat % 100))
  | .negative raw => decide (raw < 0)

end Sys2Proof
end

