-- ==== Sys2Proof/Decode.lean ====
section
/-!
DEFINITION. The instruction decoder (spec/30_encoding.md R50 to R63, spec/40 R73 to R76,
spec/50 R123) and, after it, the encoder written from the same tables.
-/
namespace Sys2Proof

/-- `digit(n, i)` of R6: the decimal digit of weight `10^i`. -/
def digit (n i : Nat) : Nat := n / 10 ^ i % 10

/-- The class number of R56. -/
def OpClass.code : OpClass → Nat
  | .add => 1
  | .mul => 2
  | .inp => 3
  | .out => 4
  | .jt => 5
  | .jf => 6
  | .lt => 7
  | .eq => 8
  | .arb => 9
  | .halt => 99

/-- R74: the lookup from the class number to the variant; no row, no variant. -/
def OpClass.ofCode : Nat → Option OpClass
  | 1 => some .add
  | 2 => some .mul
  | 3 => some .inp
  | 4 => some .out
  | 5 => some .jt
  | 6 => some .jf
  | 7 => some .lt
  | 8 => some .eq
  | 9 => some .arb
  | 99 => some .halt
  | _ => none

/-- The arity column of R56. -/
def OpClass.arity : OpClass → Nat
  | .add => 3
  | .mul => 3
  | .inp => 1
  | .out => 1
  | .jt => 2
  | .jf => 2
  | .lt => 3
  | .eq => 3
  | .arb => 1
  | .halt => 0

/-- The "writes" column of R56: whether the last parameter is a destination. -/
def OpClass.writes : OpClass → Bool
  | .add => true
  | .mul => true
  | .inp => true
  | .out => false
  | .jt => false
  | .jf => false
  | .lt => true
  | .eq => true
  | .arb => false
  | .halt => false

/-- R54: the mode of a mode digit; 3..9 are no mode (R61). -/
def Mode.ofDigit : Nat → Option Mode
  | 0 => some .position
  | 1 => some .immediate
  | 2 => some .relative
  | _ => none

/-- R54: the digit of a mode. -/
def Mode.toDigit : Mode → Nat
  | .position => 0
  | .immediate => 1
  | .relative => 2

/-- Why the decoder refuses a non-negative cell of a known class (R123 `BadMode`, `ImmDest`). -/
inductive DecodeError where
  /-- a mode digit the instruction uses is 3..9 (R61). -/
  | badMode (raw : Int)
  /-- the destination's mode digit is 1 (R62). -/
  | immDest (raw : Int)
deriving DecidableEq, Repr

/-- R53: the mode of parameter `i` (counted from 1) of the opcode cell `raw`. -/
def paramMode (raw : Int) (i : Nat) : Option Mode := Mode.ofDigit (digit raw.toNat (i + 1))

/-- Format R of R57: one value parameter. -/
def decodeR (raw : Int) (mk : Mode → Instr) : Except DecodeError Instr :=
  match paramMode raw 1 with
  | none => .error (.badMode raw)
  | some m => .ok (mk m)

/-- Format W of R57: one destination parameter; the mode digit is tested before the destination
check (R75). -/
def decodeW (raw : Int) (mk : Mode → Instr) : Except DecodeError Instr :=
  match paramMode raw 1 with
  | none => .error (.badMode raw)
  | some .immediate => .error (.immDest raw)
  | some m => .ok (mk m)

/-- Format RR of R57: two value parameters. -/
def decodeRR (raw : Int) (mk : Mode → Mode → Instr) : Except DecodeError Instr :=
  match paramMode raw 1, paramMode raw 2 with
  | some m1, some m2 => .ok (mk m1 m2)
  | _, _ => .error (.badMode raw)

/-- Format RRW of R57: two value parameters and a destination; all three mode digits are tested
before the destination check (R75). -/
def decodeRRW (raw : Int) (mk : Mode → Mode → Mode → Instr) : Except DecodeError Instr :=
  match paramMode raw 1, paramMode raw 2, paramMode raw 3 with
  | some _, some _, some .immediate => .error (.immDest raw)
  | some m1, some m2, some m3 => .ok (mk m1 m2 m3)
  | _, _, _ => .error (.badMode raw)

/-- The decoder: the opcode cell and the cells after it, of which an instruction takes as many as
its arity (R50, R76, R77). The sign test comes first (R73), then the class (R74), then the modes
(R75). -/
def decode (raw v1 v2 v3 : Int) : Except DecodeError Instr :=
  if raw < 0 then .ok (.negative raw)
  else
    match OpClass.ofCode (raw.toNat % 100) with
    | none => .ok (.unknown raw)
    | some .add => decodeRRW raw fun m1 m2 m3 => .add ⟨m1, v1⟩ ⟨m2, v2⟩ ⟨m3, v3⟩
    | some .mul => decodeRRW raw fun m1 m2 m3 => .mul ⟨m1, v1⟩ ⟨m2, v2⟩ ⟨m3, v3⟩
    | some .inp => decodeW raw fun m1 => .inp ⟨m1, v1⟩
    | some .out => decodeR raw fun m1 => .out ⟨m1, v1⟩
    | some .jt => decodeRR raw fun m1 m2 => .jt ⟨m1, v1⟩ ⟨m2, v2⟩
    | some .jf => decodeRR raw fun m1 m2 => .jf ⟨m1, v1⟩ ⟨m2, v2⟩
    | some .lt => decodeRRW raw fun m1 m2 m3 => .lt ⟨m1, v1⟩ ⟨m2, v2⟩ ⟨m3, v3⟩
    | some .eq => decodeRRW raw fun m1 m2 m3 => .eq ⟨m1, v1⟩ ⟨m2, v2⟩ ⟨m3, v3⟩
    | some .arb => decodeR raw fun m1 => .arb ⟨m1, v1⟩
    | some .halt => .ok .halt

/-- The parameters of an instruction, in order. -/
def Instr.params : Instr → List Param
  | .add p1 p2 p3 => [p1, p2, p3]
  | .mul p1 p2 p3 => [p1, p2, p3]
  | .inp p1 => [p1]
  | .out p1 => [p1]
  | .jt p1 p2 => [p1, p2]
  | .jf p1 p2 => [p1, p2]
  | .lt p1 p2 p3 => [p1, p2, p3]
  | .eq p1 p2 p3 => [p1, p2, p3]
  | .arb p1 => [p1]
  | .halt => []
  | .unknown _ => []
  | .negative _ => []

/-- The class of an instruction; the table's two rows that are no instructions have none. -/
def Instr.opClass : Instr → Option OpClass
  | .add _ _ _ => some .add
  | .mul _ _ _ => some .mul
  | .inp _ => some .inp
  | .out _ => some .out
  | .jt _ _ => some .jt
  | .jf _ _ => some .jf
  | .lt _ _ _ => some .lt
  | .eq _ _ _ => some .eq
  | .arb _ => some .arb
  | .halt => some .halt
  | .unknown _ => none
  | .negative _ => none

/-- The number of cells an instruction occupies (R50): one and its arity; a skipped or a negative
cell is one cell. -/
def Instr.length (i : Instr) : Nat := 1 + i.params.length

/-- The decoder over a list of cells, with the cells left over. Cells past the end of the list
read 0, as memory cells past the end of the store do (R32, R77). -/
def decodeCells (l : List Int) : Except DecodeError (Instr × List Int) :=
  match decode (l.getD 0 0) (l.getD 1 0) (l.getD 2 0) (l.getD 3 0) with
  | .error e => .error e
  | .ok i => .ok (i, l.drop i.length)

/-- The mode digits of an opcode cell with parameters `ps`, the first parameter's digit lowest
(R51): `m_1 + 10 * m_2 + 100 * m_3`. -/
def modeDigits : List Param → Nat
  | [] => 0
  | p :: ps => p.mode.toDigit + 10 * modeDigits ps

/-- The canonical opcode cell of a class with parameters `ps` (R51, R59, R65):
`class + 100 * m_1 + 1000 * m_2 + 10000 * m_3`. -/
def opcodeCellOf (c : OpClass) (ps : List Param) : Int := ((c.code + 100 * modeDigits ps : Nat) : Int)

/-- The opcode cell of an instruction. -/
def Instr.opcodeCell : Instr → Int
  | .add p1 p2 p3 => opcodeCellOf .add [p1, p2, p3]
  | .mul p1 p2 p3 => opcodeCellOf .mul [p1, p2, p3]
  | .inp p1 => opcodeCellOf .inp [p1]
  | .out p1 => opcodeCellOf .out [p1]
  | .jt p1 p2 => opcodeCellOf .jt [p1, p2]
  | .jf p1 p2 => opcodeCellOf .jf [p1, p2]
  | .lt p1 p2 p3 => opcodeCellOf .lt [p1, p2, p3]
  | .eq p1 p2 p3 => opcodeCellOf .eq [p1, p2, p3]
  | .arb p1 => opcodeCellOf .arb [p1]
  | .halt => opcodeCellOf .halt []
  | .unknown raw => raw
  | .negative raw => raw

/-- The encoder: the opcode cell and the parameter cells (R50, R58). -/
def encode (i : Instr) : List Int := i.opcodeCell :: i.params.map Param.value

/-- The instruction whose opcode cell has the value `w`, with parameter cells of 0. A cell is an
integer without a bit width (R6), so the bits of `w` above `nbits` being 0 leaves nothing for
`nbits` to say (log entry 14). -/
def decodeTableWord (_nbits w : Nat) : Option Instr :=
  match decodeCells [(w : Int), 0, 0, 0] with
  | .ok (i, _) => some i
  | .error _ => none

end Sys2Proof
end

