-- ==== Sys2Proof/Config.lean ====
section
/-!
DEFINITION. The open parameters of spec/00_scope.md R5 and their default values. They stand in
`State.cfg` (log entry 1), so a statement about every state is made for every choice of them. After
them the alphabets of the two ports and, as free values, what the environment behind them answers
(R5 `InputPort`, `OutputPort`; spec/50_interfaces.md R130; log entry 3).
-/
namespace Sys2Proof

/-- `UNKNOWN_OPCODE_POLICY` of R5: what a cell of no known class does (R117, R118). -/
inductive UnknownPolicy where
  /-- report and skip one cell (R117), the default. -/
  | skip
  /-- raise `UnknownOpcode` (R118). -/
  | fault
deriving DecidableEq, Repr

/-- The parameters R5 leaves open to the model. -/
structure Config where
  /-- `CELL_BITS`: `none` is the unbounded machine; `some n` a finite build (n at least 64). -/
  cellBits : Option Nat
  /-- `MEM_CAP`: the first address a bounded model refuses to write. -/
  memCap : Option Nat
  /-- `UNKNOWN_OPCODE_POLICY`. -/
  unknownPolicy : UnknownPolicy
  /-- `HOST_SEES_LEN`: whether the host may read the store length (R127). -/
  hostSeesLen : Bool
deriving DecidableEq, Repr

/-- The defaults of R5: unbounded cells, unbounded memory, SKIP, length not readable. -/
def Config.default : Config :=
  { cellBits := none, memCap := none, unknownPolicy := .skip, hostSeesLen := false }

/-- R5: a finite build has `CELL_BITS = n` with n at least 64. -/
def Config.wf (c : Config) : Bool :=
  match c.cellBits with
  | none => true
  | some n => decide (64 ≤ n)

/-- The answers of `In()` (R102). -/
inductive InAnswer where
  | value (v : Int)
  | notYet
  | fail
deriving DecidableEq, Repr, Inhabited

/-- The answers of `Out(v)` (R105). -/
inductive OutAnswer where
  | accepted
  | notYet
  | fail
deriving DecidableEq, Repr, Inhabited

/-- An event of the run's history (R22, R108). -/
inductive Event where
  | input (v : Int)
  | output (v : Int)
  | report (a : Nat) (raw : Int)
deriving DecidableEq, Repr

/-- What environment number `env` answers the `look`-th time the input port is asked, the run's
history being `history`: a free value, which nothing constrains. The spec's oracle may "compute the
value from anything, including earlier outputs" (R130, R102, D15 of spec/92_eei_decisions.md). -/
opaque Config.inputAnswer (env look : Nat) (history : List Event) : InAnswer

/-- The same for the output port, which is offered `v` (R105, R106, D16): a free value. -/
opaque Config.outputAnswer (env look : Nat) (history : List Event) (v : Int) : OutAnswer

end Sys2Proof
end

