-- ==== Sys2Proof/Machine/State.lean ====
section
/-!
DEFINITION. The state of the machine as plain data (spec/10_state.md, its opening tuple and R10
to R24), the reasons a step can stop, and the state after reset (R24, spec/70 R170).
-/
namespace Sys2Proof.Machine

open Sys2Proof

/-- `status` of R15. -/
inductive Status where
  | running
  | halted
  | faulted
deriving DecidableEq, Repr

/-- `cause` of R16, R140: why the engine is `FAULTED`. -/
inductive FaultCause where
  /-- code 0: no fault. -/
  | none
  /-- code 1: a negative address (R142). -/
  | invalidAddress
  /-- code 2: a destination in immediate mode (R143). -/
  | immediateDestination
  /-- code 3: a mode digit 3..9 (R144). -/
  | invalidMode
  /-- code 4: a negative opcode cell (R145). -/
  | negativeInstruction
  /-- code 5: a port answered `Fail` (R146). -/
  | portFailure
  /-- code 6: a result outside a finite cell (R147). -/
  | arithmeticOverflow
  /-- code 7: an unknown class under policy FAULT (R148). -/
  | unknownOpcode
deriving DecidableEq, Repr

/-- The two ports (R19). -/
inductive Port where
  | input
  | output
deriving DecidableEq, Repr

/-- How a port goes on when its scripted answers are used up (log entry 3). -/
inductive PortRest (α : Type) where
  /-- the one answer `a` for ever, as R102 has it for tests. -/
  | always (a : α)
  /-- whatever environment number `env` answers (`Config.inputAnswer`, `Config.outputAnswer`), which
  has been asked `look` times so far: the unconstrained oracle of R5, R102 and R130. -/
  | environment (env look : Nat)
deriving DecidableEq, Repr

/-- What a port will answer: the answers of `queue`, one per look at the port, and then what `rest`
says. With an empty queue and an environment, every answer is free. -/
structure PortScript (α : Type) where
  queue : List α
  rest : PortRest α
deriving DecidableEq, Repr

/-- The store of R30. `cells` lists the cells that are not 0, by strictly rising address, all
below `len`; every other address reads 0. -/
structure Memory where
  len : Nat
  cells : List (Nat × Int)
deriving DecidableEq, Repr

/-- Everything the spec gives the machine and its run (INVENTORY.md, State). -/
structure State where
  /-- the open parameters of R5; no step changes them. -/
  cfg : Config
  /-- `M` (R18, R30). -/
  mem : Memory
  /-- the program counter (R11). -/
  pc : Nat
  /-- the relative base (R13). -/
  rb : Int
  /-- the run state (R15). -/
  status : Status
  /-- the fault cause (R16). -/
  cause : FaultCause
  /-- the fault information (R16). -/
  info : Int
  /-- the port a held cycle waits on: a transaction in progress (R24, R71, R103). -/
  pending : Option Port
  /-- what the input port will answer (R22, R102). -/
  input : PortScript InAnswer
  /-- what the output port will answer (R105). -/
  output : PortScript OutAnswer
  /-- the event history, oldest first (R22, R108). -/
  events : List Event
deriving DecidableEq, Repr

/-- No reason: every fault of the spec (R140) is taken as a NEXT state with `status = FAULTED`
(R71, R141), by `State.raise`, so no step of this machine answers `.fault` (log entry 19). An
empty type is safe: nothing can be stopped by it. -/
inductive Fault : Type
deriving DecidableEq, Repr

/-- Why the model gives a step or a `Reset` no next state. -/
inductive Refusal where
  /-- Raised by no meaning: the form of an arm of `exec` not written yet; safe. -/
  | notModelled (mnemonic : String)
  /-- Raised by the one write of a cycle (`storeNext` for ADD, MUL, LT and EQ, `execIn`) at an address
  at or beyond a configured `MEM_CAP`: "must refuse (not fault, not wrap)" (R35); safe. Never
  raised in the default machine, which has no `MEM_CAP`. -/
  | memCapExceeded (a : Nat)
  /-- Raised by `hostReset` when a program cell does not fit a finite `CELL_BITS` ("a refusal of
  the program, before any cycle", R147); safe. -/
  | programOutOfRange
  /-- Raised by `hostReset` when the program is longer than a configured `MEM_CAP` (log entry
  9); safe. -/
  | programBeyondMemCap
deriving DecidableEq, Repr

/-- What a step, a meaning or a `Reset` answers. -/
abbrev Result := Host.Outcome State Fault Refusal

/-- The store of the empty program. -/
def Memory.empty : Memory := { len := 0, cells := [] }

/-- The state right after `Reset([])` (R24, R170, R173) with the default parameters (R5). What the
ports will answer is the environment's, and free from the first look on (log entry 4). -/
def State.reset : State :=
  { cfg := .default
    mem := .empty
    pc := 0
    rb := 0
    status := .running
    cause := .none
    info := 0
    pending := none
    input := { queue := [], rest := .environment 0 0 }
    output := { queue := [], rest := .environment 0 0 }
    events := [] }

end Sys2Proof.Machine
end

