-- ==== Sys2Proof/Machine/Ops.lean ====
section
/-!
DEFINITION. The named operations: the memory primitives `MemRead` and `MemWrite` (spec/20_memory.md
R30 to R35), the register updates (spec/10_state.md R10 to R13), the port transactions
(spec/43_io.md R102 to R108), taking a fault (spec/60_exceptions.md R141), and fetch (spec/40 R72
to R77). There is no return from a fault (R153), so none stands beside `State.raise`.
-/
namespace Sys2Proof.Machine

open Sys2Proof

/-! ## Memory -/

/-- The value listed for address `a`; an unlisted address reads 0 (R30, R32). -/
def lookupCell (a : Nat) : List (Nat × Int) → Int
  | [] => 0
  | (b, w) :: l => if a = b then w else lookupCell a l

/-- Put `v` at address `a`, keeping the addresses rising and listing no 0. -/
def insertCell (a : Nat) (v : Int) : List (Nat × Int) → List (Nat × Int)
  | [] => if v = 0 then [] else [(a, v)]
  | (b, w) :: l =>
    if a < b then (if v = 0 then (b, w) :: l else (a, v) :: (b, w) :: l)
    else if a = b then (if v = 0 then l else (a, v) :: l)
    else (b, w) :: insertCell a v l

/-- `cell(a)` of R30. -/
def Memory.cell (m : Memory) (a : Nat) : Int := lookupCell a m.cells

/-- The write of R33 at a valid address: the store grows to `a + 1` if it was shorter. -/
def Memory.put (m : Memory) (a : Nat) (v : Int) : Memory :=
  { len := max m.len (a + 1), cells := insertCell a v m.cells }

/-- `MemRead(a, 1)` of R32; the error carries the negative address. By R30 the two other arms of
R32 are the one expression `cell(a)`. -/
def memRead (m : Memory) (a : Int) : Except Int Int :=
  if a < 0 then .error a else .ok (m.cell a.toNat)

/-- `MemWrite(a, 1, v)` of R33; the error carries the negative address. -/
def memWrite (m : Memory) (a v : Int) : Except Int Memory :=
  if a < 0 then .error a else .ok (m.put a.toNat v)

/-- The addresses of `l` rise strictly from `lo` on, stay below `hi`, and no listed value is 0. -/
def cellsOk (lo hi : Nat) : List (Nat × Int) → Bool
  | [] => true
  | (a, v) :: l => decide (lo ≤ a) && decide (a < hi) && decide (v ≠ 0) && cellsOk (a + 1) hi l

/-- The canonical form of the store; with it `cell(a) = 0` for every `a >= len` (R30). -/
def Memory.wf (m : Memory) : Bool := cellsOk 0 m.len m.cells

/-- The listed cells of a program whose first cell stands at address `a`. -/
def programCells (a : Nat) : List Int → List (Nat × Int)
  | [] => []
  | v :: l => if v = 0 then programCells (a + 1) l else (a, v) :: programCells (a + 1) l

/-- The store of a loaded program (R24): `len` cells, the k-th at address k. -/
def Memory.ofProgram (program : List Int) : Memory :=
  { len := program.length, cells := programCells 0 program }

/-! ## The finite builds of R5 -/

/-- Whether a value fits a cell (R5, R92): always in the unbounded machine, and within
`-2^(n-1) .. 2^(n-1)-1` when `CELL_BITS = n`. -/
def State.fits (s : State) (v : Int) : Bool :=
  match s.cfg.cellBits with
  | none => true
  | some n => decide (-(2 ^ (n - 1) : Int) ≤ v) && decide (v < (2 ^ (n - 1) : Int))

/-- Whether a write at `a` is below `MEM_CAP` (R35). -/
def State.allowsWrite (s : State) (a : Nat) : Bool :=
  match s.cfg.memCap with
  | none => true
  | some n => decide (a < n)

/-! ## Register updates -/

/-- Another store. -/
def State.setMem (s : State) (m : Memory) : State := { s with mem := m }

/-- `pc <- pc + k` (R81). -/
def State.advance (s : State) (k : Nat) : State := { s with pc := s.pc + k }

/-- `pc <- a`, a taken jump (R113). -/
def State.jumpTo (s : State) (a : Nat) : State := { s with pc := a }

/-- `rb <- v` (R115). -/
def State.setRb (s : State) (v : Int) : State := { s with rb := v }

/-- `status <- HALTED` (R116). -/
def State.halt (s : State) : State := { s with status := .halted }

/-- One event appended to the history (R108). -/
def State.record (s : State) (e : Event) : State := { s with events := s.events ++ [e] }

/-! ## Ports -/

/-- The answer a port gives at this look; `free` is what each environment answers at each look. -/
def PortScript.answer {α : Type} (free : Nat → Nat → α) (p : PortScript α) : α :=
  match p.queue with
  | x :: _ => x
  | [] =>
    match p.rest with
    | .always a => a
    | .environment env look => free env look

/-- The port after one look: a scripted answer is used up, and an environment is never asked the
same look twice. -/
def PortScript.next {α : Type} (p : PortScript α) : PortScript α :=
  match p.queue with
  | _ :: q => { p with queue := q }
  | [] =>
    match p.rest with
    | .always _ => p
    | .environment env look => { p with rest := .environment env (look + 1) }

/-- What `In()` answers now (R102). -/
def State.inAnswer (s : State) : InAnswer :=
  s.input.answer fun env look => Config.inputAnswer env look s.events

/-- What `Out(v)` answers now (R105). -/
def State.outAnswer (s : State) (v : Int) : OutAnswer :=
  s.output.answer fun env look => Config.outputAnswer env look s.events v

/-- The state after one look at the input port: that port moved on, and `pending` saying whether
the transaction is still in progress. -/
def State.sawInput (s : State) (busy : Option Port) : State :=
  { s with input := s.input.next, pending := busy }

/-- The same for the output port. -/
def State.sawOutput (s : State) (busy : Option Port) : State :=
  { s with output := s.output.next, pending := busy }

/-! ## Taking a fault -/

/-- `raise F(info)` (R141): the engine stops with the cause and its information recorded; `M`,
`pc`, `rb` and the history stay. A stopped engine has no transaction in progress. -/
def State.raise (s : State) (c : FaultCause) (info : Int) : State :=
  { s with status := .faulted, cause := c, info := info, pending := none }

/-! ## What a port's answer does -/

/-- R102's table, column "effect on the IN instruction", for a valid destination `d`: a value is
stored and `pc` moves on (R100), "not yet" holds (R103), `Fail` faults (R104). A delivered value
that a finite cell cannot hold overflows instead (R147, R151 line 10). -/
def State.received (s : State) (d : Nat) : InAnswer → State
  | .value v =>
    if s.fits v then (((s.sawInput none).record (.input v)).setMem (s.mem.put d v)).advance 2
    else (s.sawInput none).raise .arithmeticOverflow (OpClass.inp.code : Int)
  | .notYet => s.sawInput (some .input)
  | .fail => (s.sawInput none).raise .portFailure 0

/-- Whether IN would store what the port answers: a delivered value that fits. -/
def State.stores (s : State) : InAnswer → Bool
  | .value v => s.fits v
  | .notYet => false
  | .fail => false

/-- What the answer to `Out(v)` does (R105, R106): accepted completes the OUT, "not yet" holds,
`Fail` faults. -/
def State.offered (s : State) (v : Int) : OutAnswer → State
  | .accepted => ((s.sawOutput none).record (.output v)).advance 2
  | .notYet => s.sawOutput (some .output)
  | .fail => (s.sawOutput none).raise .portFailure 1

/-! ## Fetch -/

/-- The fault of a cell the decoder refuses (R61, R62, R75). -/
def State.raiseDecode (s : State) : DecodeError → State
  | .badMode raw => s.raise .invalidMode raw
  | .immDest raw => s.raise .immediateDestination raw

/-- Fetch and decode (R72 to R77): the opcode cell and the window after it, in whose cells an
instruction finds its parameters. Cells past its arity are not used. -/
def State.fetch (s : State) : Except DecodeError Instr :=
  decode (s.mem.cell s.pc) (s.mem.cell (s.pc + 1)) (s.mem.cell (s.pc + 2)) (s.mem.cell (s.pc + 3))

/-- The state with `l` written into the store from address `a` on. -/
def Memory.place (m : Memory) (a : Nat) : List Int → Memory
  | [] => m
  | v :: l => Memory.place (m.put a v) (a + 1) l

end Sys2Proof.Machine
end

