-- ==== Sys2Proof/Machine/Operands.lean ====
section
/-!
DEFINITION. The parameter-mode resolver (spec/40_cycle_decode_resolve.md R78 to R80) and the
shared ends of a cycle: the checks before an effect, each of which takes its fault, and the one
write. An operation `with…` runs the rest of the meaning with what it resolved.
-/
namespace Sys2Proof.Machine

open Sys2Proof

/-- `ResolveRead(v, m)` (R78); the error carries the negative address. -/
def resolveRead (s : State) (p : Param) : Except Int Int :=
  match p.mode with
  | .position => memRead s.mem p.value
  | .immediate => .ok p.value
  | .relative => memRead s.mem (p.value + s.rb)

/-- The address `ResolveDest(v, m)` (R79) computes, before its sign test; an immediate destination
has none. -/
def destAddress (s : State) (p : Param) : Option Int :=
  match p.mode with
  | .position => some p.value
  | .immediate => none
  | .relative => some (p.value + s.rb)

/-- Resolve a value parameter; a negative address raises `InvalidAddress` (R142). -/
def withOperand (s : State) (p : Param) (k : Int → Result) : Result :=
  match resolveRead s p with
  | .error a => .next (s.raise .invalidAddress a)
  | .ok v => k v

/-- Find the destination's address; an immediate destination raises `ImmediateDestination` with
the opcode cell (R62, R143), before any parameter is resolved (R75). No fetched cell decodes to
an instruction with one (log entry 12). -/
def withDest (s : State) (i : Instr) (p : Param) (k : Int → Result) : Result :=
  match destAddress s p with
  | none => .next (s.raise .immediateDestination i.opcodeCell)
  | some a => k a

/-- The sign test of R79 and R113: a negative address raises `InvalidAddress`. -/
def withValidAddress (s : State) (a : Int) (k : Result) : Result :=
  if a < 0 then .next (s.raise .invalidAddress a) else k

/-- The range test of a finite build: a value that does not fit a cell raises
`ArithmeticOverflow` with the class of the instruction (R147). -/
def withFit (s : State) (c : OpClass) (v : Int) (k : Result) : Result :=
  if s.fits v then k else .next (s.raise .arithmeticOverflow (c.code : Int))

/-- The parameters of format RRW, resolved in the order of R80 and R151: operand 1, operand 2,
destination. -/
def withRRW (s : State) (i : Instr) (p1 p2 p3 : Param) (k : Int → Int → Int → Result) : Result :=
  withDest s i p3 fun d =>
    withOperand s p1 fun o1 =>
      withOperand s p2 fun o2 =>
        withValidAddress s d (k o1 o2 d)

/-- The one write of a cycle and the advance after it (R80, R81): `MemWrite(d, 1, v)` and
`pc <- pc + n`. A bounded model refuses a write at or beyond `MEM_CAP` (R35). -/
def storeNext (s : State) (d v : Int) (n : Nat) : Result :=
  match memWrite s.mem d v with
  | .error a => .next (s.raise .invalidAddress a)
  | .ok m =>
    if s.allowsWrite d.toNat then .next ((s.setMem m).advance n)
    else .refused (.memCapExceeded d.toNat)

/-- The end of a jump (R110, R111, R113): to `target` when taken, which must not be negative, else
past the instruction's three cells. -/
def branch (s : State) (taken : Bool) (target : Int) : Result :=
  if taken then withValidAddress s target (.next (s.jumpTo target.toNat))
  else .next (s.advance 3)

end Sys2Proof.Machine
end

