-- ==== Sys2Proof/Machine/Arith.lean ====
section
/-!
DEFINITION. The meanings of ADD and MUL (spec/41_arithmetic.md R90 to R93): exact integers, with
the overflow fault of a finite build (R92).
-/
namespace Sys2Proof.Machine

open Sys2Proof

/-- ADD (R90). -/
def execAdd (p1 p2 p3 : Param) (s : State) : Result :=
  withRRW s (.add p1 p2 p3) p1 p2 p3 fun o1 o2 d =>
    withFit s .add (o1 + o2) (storeNext s d (o1 + o2) 4)

/-- MUL (R91). -/
def execMul (p1 p2 p3 : Param) (s : State) : Result :=
  withRRW s (.mul p1 p2 p3) p1 p2 p3 fun o1 o2 d =>
    withFit s .mul (o1 * o2) (storeNext s d (o1 * o2) 4)

end Sys2Proof.Machine
end

