-- ==== Sys2Proof/Machine/Flags.lean ====
section
/-!
DEFINITION. The machine has no flags (spec/10_state.md R14). In their place stand its truth values
(spec/42_compare.md R97) and the ALU's compare operations (spec/50_interfaces.md R125).
-/
namespace Sys2Proof.Machine

open Sys2Proof

/-- R97: a comparison writes 1 for true and 0 for false. -/
def truthCell (b : Bool) : Int := if b then 1 else 0

/-- `lt` of R125: the strict signed order (R95). -/
def aluLt (a b : Int) : Int := truthCell (decide (a < b))

/-- `eq` of R125 (R96). -/
def aluEq (a b : Int) : Int := truthCell (decide (a = b))

/-- `nz` of R125: every integer but 0 counts as true (R97). -/
def aluNz (a : Int) : Bool := decide (a ≠ 0)

end Sys2Proof.Machine
end

