-- ==== Sys2Proof/Machine/Compare.lean ====
section
/-!
DEFINITION. The meanings of LT and EQ (spec/42_compare.md R95, R96): the result is 0 or 1 and never
overflows a finite cell.
-/
namespace Sys2Proof.Machine

open Sys2Proof

/-- LT (R95). -/
def execLt (p1 p2 p3 : Param) (s : State) : Result :=
  withRRW s (.lt p1 p2 p3) p1 p2 p3 fun o1 o2 d => storeNext s d (aluLt o1 o2) 4

/-- EQ (R96). -/
def execEq (p1 p2 p3 : Param) (s : State) : Result :=
  withRRW s (.eq p1 p2 p3) p1 p2 p3 fun o1 o2 d => storeNext s d (aluEq o1 o2) 4

end Sys2Proof.Machine
end

