-- ==== Sys2Proof/Machine/Jump.lean ====
section
/-!
DEFINITION. The meanings of JT and JF (spec/44_jumps.md R110 to R113). Both operands are resolved
whether or not the branch is taken (R112).
-/
namespace Sys2Proof.Machine

open Sys2Proof

/-- JT (R110). -/
def execJt (p1 p2 : Param) (s : State) : Result :=
  withOperand s p1 fun o1 => withOperand s p2 fun o2 => branch s (aluNz o1) o2

/-- JF (R111). -/
def execJf (p1 p2 : Param) (s : State) : Result :=
  withOperand s p1 fun o1 => withOperand s p2 fun o2 => branch s (!aluNz o1) o2

end Sys2Proof.Machine
end

