-- ==== Sys2Proof/Machine/PortIO.lean ====
section
/-!
DEFINITION. The meanings of IN and OUT (spec/43_io.md R100 to R106). A step that meets "not yet"
holds: only the port itself and `pending` move on (R103).
-/
namespace Sys2Proof.Machine

open Sys2Proof

/-- IN (R100): the destination is resolved before the port is touched; then one look at the port.
A bounded model refuses to store at or beyond `MEM_CAP` what the port delivers (R35). -/
def execIn (p1 : Param) (s : State) : Result :=
  withDest s (.inp p1) p1 fun d =>
    withValidAddress s d <|
      if !s.allowsWrite d.toNat && s.stores s.inAnswer then .refused (.memCapExceeded d.toNat)
      else .next (s.received d.toNat s.inAnswer)

/-- OUT (R101, R105, R106): the operand is resolved, then one look at the port. -/
def execOut (p1 : Param) (s : State) : Result :=
  withOperand s p1 fun o1 => .next (s.offered o1 (s.outAnswer o1))

end Sys2Proof.Machine
end

