-- ==== Sys2Proof/Machine/System.lean ====
section
/-!
DEFINITION. The meanings of ARB, HALT, a cell of no known class and a negative opcode cell
(spec/45_relbase_halt_unknown.md R115 to R119, spec/60_exceptions.md R145, R148).
-/
namespace Sys2Proof.Machine

open Sys2Proof

/-- ARB (R115): the operand is resolved with the old `rb`. -/
def execArb (p1 : Param) (s : State) : Result :=
  withOperand s p1 fun o1 =>
    withFit s .arb (s.rb + o1) (.next ((s.setRb (s.rb + o1)).advance 2))

/-- HALT (R116). -/
def execHalt (s : State) : Result := .next s.halt

/-- A cell of no known class: report and skip one cell (R117, R119), or the fault of the optional
policy (R118). -/
def execUnknown (raw : Int) (s : State) : Result :=
  match s.cfg.unknownPolicy with
  | .skip => .next ((s.record (.report s.pc raw)).advance 1)
  | .fault => .next (s.raise .unknownOpcode raw)

/-- A negative opcode cell (R63, R73, R145). -/
def execNegative (raw : Int) (s : State) : Result := .next (s.raise .negativeInstruction raw)

end Sys2Proof.Machine
end

