-- ==== Sys2Proof/Machine/Dispatch.lean ====
section
/-!
DEFINITION. One arm per row of spec/opcode_table.json.
-/
namespace Sys2Proof.Machine

open Sys2Proof

def exec (i : Instr) (s : State) : Host.Outcome State Fault Refusal :=
  match i with
  | .add p1 p2 p3 => Sys2Proof.Machine.execAdd p1 p2 p3 s
  | .mul p1 p2 p3 => Sys2Proof.Machine.execMul p1 p2 p3 s
  | .inp p1 => Sys2Proof.Machine.execIn p1 s
  | .out p1 => Sys2Proof.Machine.execOut p1 s
  | .jt p1 p2 => Sys2Proof.Machine.execJt p1 p2 s
  | .jf p1 p2 => Sys2Proof.Machine.execJf p1 p2 s
  | .lt p1 p2 p3 => Sys2Proof.Machine.execLt p1 p2 p3 s
  | .eq p1 p2 p3 => Sys2Proof.Machine.execEq p1 p2 p3 s
  | .arb p1 => Sys2Proof.Machine.execArb p1 s
  | .halt => Sys2Proof.Machine.execHalt s
  | .unknown raw => Sys2Proof.Machine.execUnknown raw s
  | .negative raw => Sys2Proof.Machine.execNegative raw s

end Sys2Proof.Machine
end

