-- ==== Sys2Proof/Machine/Step.lean ====
section
/-!
DEFINITION. One step of the engine: one cycle of spec/40_cycle_decode_resolve.md R70, enabled only
while `status = RUNNING` (spec/10_state.md R15).
-/
namespace Sys2Proof.Machine

open Sys2Proof

/-- One cycle (R70): fetch and decode, then the instruction's own meaning. -/
def cycle (s : State) : Host.Outcome State Fault Refusal :=
  match s.fetch with
  | .ok i => exec i s
  | .error e => .next (s.raiseDecode e)

/-- A stopped engine takes no step: its state stays as it is (R15; log entry 6). -/
def step (s : State) : Host.Outcome State Fault Refusal :=
  match s.status with
  | .running => cycle s
  | .halted => .next s
  | .faulted => .next s

/-- `s` running, with the opcode cell of value `w` and three parameter cells of 0 at `pc`, so that
the next step fetches it (log entries 13, 14). -/
def State.withFetchWord (s : State) (_nbits w : Nat) : State :=
  { s with mem := s.mem.place s.pc [(w : Int), 0, 0, 0], status := .running }

end Sys2Proof.Machine
end

