-- ==== Sys2Proof/Machine/Access.lean ====
section
/-!
DEFINITION. The memory controller's accesses of one cycle (spec/20_memory.md R46, spec/50 R126):
which cells a cycle reads, in order, and which one it may write. They are read off the same fetch
and the same address computations the meanings use; nothing in `step` depends on this file.
-/
namespace Sys2Proof.Machine

open Sys2Proof

/-- The parameters an instruction reads a value through, in order: all but its destination. -/
def valueParams : Instr → List Param
  | .add p1 p2 _ => [p1, p2]
  | .mul p1 p2 _ => [p1, p2]
  | .inp _ => []
  | .out p1 => [p1]
  | .jt p1 p2 => [p1, p2]
  | .jf p1 p2 => [p1, p2]
  | .lt p1 p2 _ => [p1, p2]
  | .eq p1 p2 _ => [p1, p2]
  | .arb p1 => [p1]
  | .halt => []
  | .unknown _ => []
  | .negative _ => []

/-- The destination parameter of a writing instruction (R56). -/
def destParam : Instr → Option Param
  | .add _ _ p3 => some p3
  | .mul _ _ p3 => some p3
  | .inp p1 => some p1
  | .out _ => none
  | .jt _ _ => none
  | .jf _ _ => none
  | .lt _ _ p3 => some p3
  | .eq _ _ p3 => some p3
  | .arb _ => none
  | .halt => none
  | .unknown _ => none
  | .negative _ => none

/-- The cell a value parameter reads (R46): none in immediate mode, none at a negative address. -/
def readAddress (s : State) (p : Param) : Option Nat :=
  match destAddress s p with
  | none => none
  | some a => if a < 0 then none else some a.toNat

/-- The cells a cycle reads, in order (R46): the opcode cell, the window, the operands. A cell the
decoder refuses is the only one its cycle reads (R75). -/
def cycleReads (s : State) : List Nat :=
  match s.fetch with
  | .error _ => [s.pc]
  | .ok i =>
    (List.range i.length).map (fun k => s.pc + k) ++ (valueParams i).filterMap (readAddress s)

/-- The cell a cycle writes when it completes (R46). -/
def cycleWrite (s : State) : Option Nat :=
  match s.fetch with
  | .error _ => none
  | .ok i =>
    match destParam i with
    | none => none
    | some p => readAddress s p

end Sys2Proof.Machine
end

