-- ==== Sys2Proof/Machine/HostPort.lean ====
section
/-!
DEFINITION. The host's side: the `RESET` transaction (spec/50_interfaces.md R131, spec/70 R170) and
the read-only `HOST` interface (R127), with the codes of `status` (spec/10_state.md R15) and
`cause` (spec/60_exceptions.md R140), and the three histories of R22. None of it is a step of the
engine (log entry 18).
-/
namespace Sys2Proof.Machine

open Sys2Proof

/-- The codes of R15. -/
def Status.code : Status → Nat
  | .running => 0
  | .halted => 1
  | .faulted => 2

/-- The codes of R140. -/
def FaultCause.code : FaultCause → Nat
  | .none => 0
  | .invalidAddress => 1
  | .immediateDestination => 2
  | .invalidMode => 3
  | .negativeInstruction => 4
  | .portFailure => 5
  | .arithmeticOverflow => 6
  | .unknownOpcode => 7

/-- The state `Reset(Program)` establishes (R24, R170) on a machine with parameters `cfg` whose
ports will answer as `inp` and `outp` say. -/
def State.loaded (cfg : Config) (inp : PortScript InAnswer) (outp : PortScript OutAnswer)
    (program : List Int) : State :=
  { cfg := cfg
    mem := .ofProgram program
    pc := 0
    rb := 0
    status := .running
    cause := .none
    info := 0
    pending := none
    input := inp
    output := outp
    events := [] }

/-- Whether a machine can hold a program: every cell fits `CELL_BITS` (R147). -/
def State.fitsProgram (s : State) (program : List Int) : Bool := program.all fun v => s.fits v

/-- Whether a program of `n` cells stays below `MEM_CAP` (log entry 9). -/
def State.allowsProgram (s : State) (n : Nat) : Bool :=
  match s.cfg.memCap with
  | none => true
  | some cap => decide (n ≤ cap)

/-- `Reset(Program)` (R131): in any status, discarding everything of the core's state. A program a
finite build cannot hold is refused before any cycle (R147). -/
def hostReset (program : List Int) (s : State) : Result :=
  if s.fitsProgram program then
    if s.allowsProgram program.length then
      .next (.loaded s.cfg s.input s.output program)
    else .refused .programBeyondMemCap
  else .refused .programOutOfRange

/-- What the host may ask for (R127). -/
inductive HostQuery where
  | status
  | cause
  | info
  | pc
  | rb
  | cell (a : Nat)
  | len
deriving DecidableEq, Repr

/-- A read of the `HOST` interface (R127): defined only after the run's end, the length only where
`HOST_SEES_LEN` holds (log entry 16). -/
def hostRead (q : HostQuery) (s : State) : Option Int :=
  match s.status with
  | .running => none
  | _ =>
    match q with
    | .status => some s.status.code
    | .cause => some s.cause.code
    | .info => some s.info
    | .pc => some s.pc
    | .rb => some s.rb
    | .cell a => some (s.mem.cell a)
    | .len => if s.cfg.hostSeesLen then some s.mem.len else none

/-- The values the input port has delivered, oldest first (R22). -/
def State.inputs (s : State) : List Int :=
  s.events.filterMap fun e => match e with
    | .input v => some v
    | .output _ => none
    | .report _ _ => none

/-- The values the output port has received, oldest first (R22). -/
def State.outputs (s : State) : List Int :=
  s.events.filterMap fun e => match e with
    | .input _ => none
    | .output v => some v
    | .report _ _ => none

/-- The reports made, oldest first (R22). -/
def State.reports (s : State) : List (Nat × Int) :=
  s.events.filterMap fun e => match e with
    | .input _ => none
    | .output _ => none
    | .report a raw => some (a, raw)

end Sys2Proof.Machine
end

