-- ==== Sys2Proof/Safety.lean ====
section
/-!
DEFINITION. The words the statements use: when a parameter resolves and to what (spec/40 R78, R79),
what a completed store leaves, the invariants every step keeps, which faults a class can raise
(spec/60 R149), and the cycle of spec/40 R70 written over raw cells and digits, as its pseudocode
has it, for comparison with `step`.
-/
namespace Sys2Proof.Machine

open Sys2Proof

/-! ## Operands -/

/-- R78: the value parameter `p` resolves without a fault. -/
def readable (s : State) (p : Param) : Bool :=
  match p.mode with
  | .position => decide (0 ≤ p.value)
  | .immediate => true
  | .relative => decide (0 ≤ p.value + s.rb)

/-- R78: the value a readable parameter resolves to. -/
def operandValue (s : State) (p : Param) : Int :=
  match p.mode with
  | .position => s.mem.cell p.value.toNat
  | .immediate => p.value
  | .relative => s.mem.cell (p.value + s.rb).toNat

/-- R79: the destination parameter `p` names a valid address. -/
def writable (s : State) (p : Param) : Bool :=
  match p.mode with
  | .position => decide (0 ≤ p.value)
  | .immediate => false
  | .relative => decide (0 ≤ p.value + s.rb)

/-- R79: the address a writable parameter names. -/
def destCell (s : State) (p : Param) : Nat :=
  match p.mode with
  | .position => p.value.toNat
  | .immediate => 0
  | .relative => (p.value + s.rb).toNat

/-- What a completed store of `v` at `d` leaves (R33, R81): that cell changed, every other as it
was, the store grown to hold it, `pc` moved past `n` cells, and nothing else different. -/
def Stored (s t : State) (d : Nat) (v : Int) (n : Nat) : Prop :=
  t.mem.cell d = v ∧ (∀ b, b ≠ d → t.mem.cell b = s.mem.cell b) ∧
    t.mem.len = max s.mem.len (d + 1) ∧ t = { s with mem := t.mem, pc := s.pc + n }

/-- `t` is `s` with a fault taken (R141): every other field as it was, but that a stopped engine
has no transaction in progress. -/
def FaultTaken (s t : State) : Prop := t = s.raise t.cause t.info ∧ t.cause ≠ .none

/-- The answer `r` of a cycle begun in `s` is the fault `c` with information `info` (R141): `status`,
`cause` and `info` are written, and `M`, `pc`, `rb`, the history, the ports and the parameters are
as they were when the cycle began. -/
def FaultsWith (s : State) (r : Result) (c : FaultCause) (info : Int) : Prop :=
  ∃ t, r = .next t ∧ t.status = .faulted ∧ t.cause = c ∧ t.info = info ∧ t.mem = s.mem ∧
    t.pc = s.pc ∧ t.rb = s.rb ∧ t.events = s.events ∧ t.input = s.input ∧
    t.output = s.output ∧ t.cfg = s.cfg

/-- Two answers that differ at most in the length of the store (R20). -/
def SameButLength (r r' : Result) : Prop :=
  match r, r' with
  | .next t, .next t' => t' = t.setMem { len := t'.mem.len, cells := t.mem.cells }
  | .refused e, .refused e' => e' = e
  | _, _ => False

/-- Two answers that differ at most in cells that neither cycle wrote (R46): in every other field
they agree, and a cell holds the same value in both or what it held in the one's own store. -/
def SameButUnread (m m' : Memory) (r r' : Result) : Prop :=
  match r, r' with
  | .next t, .next t' =>
    t' = t.setMem t'.mem ∧
      ∀ a, t'.mem.cell a = t.mem.cell a ∨ (t.mem.cell a = m.cell a ∧ t'.mem.cell a = m'.cell a)
  | .refused e, .refused e' => e' = e
  | _, _ => False

/-- The same state of a machine built with the policy `u` (R118). -/
def State.setPolicy (s : State) (u : UnknownPolicy) : State :=
  { s with cfg :=
    { cellBits := s.cfg.cellBits
      memCap := s.cfg.memCap
      unknownPolicy := u
      hostSeesLen := s.cfg.hostSeesLen } }

/-- Two answers that differ at most in `UNKNOWN_OPCODE_POLICY` (R118). -/
def SameButPolicy (u : UnknownPolicy) (r r' : Result) : Prop :=
  match r, r' with
  | .next t, .next t' => t' = t.setPolicy u
  | .refused e, .refused e' => e' = e
  | _, _ => False

/-! ## Invariants -/

/-- What the fields of a state say to each other: the store is in its one form with no cell beyond
its length (R30), a cause is recorded exactly in `FAULTED` (R16, R140), and only a running engine
at a port instruction has a transaction in progress (R103). -/
def Consistent (s : State) : Prop :=
  s.mem.wf = true ∧ (s.status = .faulted ↔ s.cause ≠ .none) ∧ (s.status ≠ .faulted → s.info = 0) ∧
    (s.status ≠ .running → s.pending = none) ∧
    (s.pending = some .input → ∃ p, s.fetch = .ok (.inp p)) ∧
    (s.pending = some .output → ∃ p, s.fetch = .ok (.out p))

/-- In a finite build (R5) every cell and `rb` are in range (R92); of an unbounded machine it says
nothing. -/
def InRange (s : State) : Prop :=
  s.cfg.wf = true ∧ s.fits s.rb = true ∧ ∀ a, s.fits (s.mem.cell a) = true

/-- A memory-bounded machine holds no cell at or beyond `MEM_CAP` (R35). -/
def WithinCap (s : State) : Prop := ∀ cap, s.cfg.memCap = some cap → s.mem.len ≤ cap

/-! ## Faults -/

/-- R149: the faults a cycle of each class can raise. -/
def classFaults : OpClass → List FaultCause
  | .add => [.invalidAddress, .immediateDestination, .invalidMode, .arithmeticOverflow]
  | .mul => [.invalidAddress, .immediateDestination, .invalidMode, .arithmeticOverflow]
  | .inp => [.invalidAddress, .immediateDestination, .invalidMode, .portFailure, .arithmeticOverflow]
  | .out => [.invalidAddress, .invalidMode, .portFailure]
  | .jt => [.invalidAddress, .invalidMode]
  | .jf => [.invalidAddress, .invalidMode]
  | .lt => [.invalidAddress, .immediateDestination, .invalidMode]
  | .eq => [.invalidAddress, .immediateDestination, .invalidMode]
  | .arb => [.invalidAddress, .invalidMode, .arithmeticOverflow]
  | .halt => []

/-- R149: the faults a cycle that fetches the opcode cell `raw` can raise. -/
def cellFaults (raw : Int) : List FaultCause :=
  if raw < 0 then [.negativeInstruction]
  else
    match OpClass.ofCode (raw.toNat % 100) with
    | none => [.unknownOpcode]
    | some c => classFaults c

/-! ## The cycle of R70 over raw cells -/

/-- `ResolveRead(v, m)` of R78 with the mode as its digit. -/
def digitRead (s : State) (v : Int) (m : Nat) : Except (FaultCause × Int) Int :=
  if m = 1 then .ok v
  else
    let a := if m = 2 then v + s.rb else v
    if a < 0 then .error (.invalidAddress, a) else .ok (s.mem.cell a.toNat)

/-- `ResolveDest(v, m)` of R79 with the mode as its digit. -/
def digitDest (s : State) (v : Int) (m : Nat) : Except (FaultCause × Int) Int :=
  let a := if m = 2 then v + s.rb else v
  if a < 0 then .error (.invalidAddress, a) else .ok a

/-- The write of a result and the advance over `k + 1` cells (R80, R81), under R35 and, where the
rule gives the class an overflow, R147. -/
def digitStore (s u : State) (c : Nat) (d v : Int) (k : Nat) : Result :=
  if (c = 1 ∨ c = 2 ∨ c = 3) ∧ ¬ s.fits v then .next (s.raise .arithmeticOverflow c)
  else if s.allowsWrite d.toNat then .next { u with mem := s.mem.put d.toNat v, pc := s.pc + k + 1 }
  else .refused (.memCapExceeded d.toNat)

/-- The effect of class `c` on resolved operands (R90 to R116), with the advance of R70. -/
def digitEffect (s : State) (c k : Nat) (o1 o2 d : Int) : Result :=
  if c = 1 then digitStore s s c d (o1 + o2) k
  else if c = 2 then digitStore s s c d (o1 * o2) k
  else if c = 3 then
    let u := { s with input := s.input.next, pending := none }
    match s.inAnswer with
    | .notYet => .next { u with pending := some .input }
    | .fail => .next (u.raise .portFailure 0)
    | .value v => digitStore u { u with events := s.events ++ [.input v] } c d v k
  else if c = 4 then
    let u := { s with output := s.output.next, pending := none }
    match s.outAnswer o1 with
    | .notYet => .next { u with pending := some .output }
    | .fail => .next (u.raise .portFailure 1)
    | .accepted => .next { u with events := s.events ++ [.output o1], pc := s.pc + k + 1 }
  else if c = 5 then
    if o1 ≠ 0 then
      if o2 < 0 then .next (s.raise .invalidAddress o2) else .next { s with pc := o2.toNat }
    else .next { s with pc := s.pc + 3 }
  else if c = 6 then
    if o1 = 0 then
      if o2 < 0 then .next (s.raise .invalidAddress o2) else .next { s with pc := o2.toNat }
    else .next { s with pc := s.pc + 3 }
  else if c = 7 then digitStore s s c d (if o1 < o2 then 1 else 0) k
  else if c = 8 then digitStore s s c d (if o1 = o2 then 1 else 0) k
  else if c = 9 then
    if s.fits (s.rb + o1) then .next { s with rb := s.rb + o1, pc := s.pc + k + 1 }
    else .next (s.raise .arithmeticOverflow 9)
  else .next { s with status := .halted }

/-- The arity column of R56 by class number. -/
def digitArity (c : Nat) : Nat :=
  if c = 1 ∨ c = 2 ∨ c = 7 ∨ c = 8 then 3
  else if c = 5 ∨ c = 6 then 2
  else if c = 3 ∨ c = 4 ∨ c = 9 then 1
  else 0

/-- The "writes" column of R56 by class number. -/
def digitWrites (c : Nat) : Bool := decide (c = 1 ∨ c = 2 ∨ c = 3 ∨ c = 7 ∨ c = 8)

/-- R70's `Cycle`, line by line: no `Instr`, no `Mode`, only the cells and their digits. -/
def digitCycle (s : State) : Result :=
  let raw := s.mem.cell s.pc
  if raw < 0 then .next (s.raise .negativeInstruction raw)
  else
    let c := raw.toNat % 100
    if c ∉ knownClasses then
      if s.cfg.unknownPolicy = .skip then
        .next { s with events := s.events ++ [.report s.pc raw], pc := s.pc + 1 }
      else .next (s.raise .unknownOpcode raw)
    else
      let k := digitArity c
      let m := fun i => digit raw.toNat (i + 1)
      let p := fun i => s.mem.cell (s.pc + i)
      let nr := if digitWrites c then k - 1 else k
      if ∃ i ∈ List.range k, 2 < m (i + 1) then .next (s.raise .invalidMode raw)
      else if digitWrites c ∧ m k = 1 then .next (s.raise .immediateDestination raw)
      else
        match (if 1 ≤ nr then digitRead s (p 1) (m 1) else .ok 0) with
        | .error (f, a) => .next (s.raise f a)
        | .ok o1 =>
          match (if 2 ≤ nr then digitRead s (p 2) (m 2) else .ok 0) with
          | .error (f, a) => .next (s.raise f a)
          | .ok o2 =>
            match (if digitWrites c then digitDest s (p k) (m k) else .ok 0) with
            | .error (f, a) => .next (s.raise f a)
            | .ok d => digitEffect s c k o1 o2 d

end Sys2Proof.Machine
end

