-- ==== Sys2Proof/Certificates/Slice0/Obligations.lean ====
section
/-!
DEFINITION. The statements for the provers, from the numbered rules of spec/. Each docstring names
the rules it formalises; OBLIGATIONS.json lists them.
-/

section

open Sys2Proof Sys2Proof.Machine

/-! ## Reset, the host, the end of a run -/

/-- R170, R24: `Reset(Program)`, in any state, of a program whose cells fit (R147) and that stays
below any `MEM_CAP` (R35); what it leaves depends on nothing of the state before it but the parameters and what the
ports will answer, which are not the core's. -/
def Obligations.ResetLoadsProgram : Prop :=
  ∀ (program : List Int) (s : State), s.fitsProgram program = true →
    (∀ cap, s.cfg.memCap = some cap → program.length ≤ cap) →
    ∃ t, hostReset program s = .next t ∧
      t.mem.len = program.length ∧
      (∀ a v, program[a]? = some v → t.mem.cell a = v) ∧
      (∀ a, program.length ≤ a → t.mem.cell a = 0) ∧
      t.pc = 0 ∧ t.rb = 0 ∧ t.status = .running ∧ t.cause = .none ∧ t.info = 0 ∧
      t.pending = none ∧ t.events = [] ∧
      ∀ s' : State, s'.cfg = s.cfg → s'.input = s.input → s'.output = s.output →
        hostReset program s' = .next t

/-- R24, R173: the state after `Reset([])`; every cell reads 0 and the first fetch finds class 0. -/
def Obligations.ResetStateValues : Prop :=
  State.reset.pc = 0 ∧ State.reset.rb = 0 ∧ State.reset.mem.len = 0 ∧
    (∀ a, State.reset.mem.cell a = 0) ∧ State.reset.status = .running ∧
    State.reset.cause = .none ∧ State.reset.info = 0 ∧ State.reset.pending = none ∧
    State.reset.events = [] ∧ State.reset.fetch = .ok (.unknown 0)

/-- R178, R173: under policy SKIP an engine with nothing but zeros from `pc` on skips for ever,
reporting each cell; `pc` grows, the store does not. -/
def Obligations.SkipsZerosForEver : Prop :=
  ∀ (s : State) (k : Nat), s.status = .running → s.cfg.unknownPolicy = .skip →
    (∀ a, s.pc ≤ a → s.mem.cell a = 0) →
    Sys2Proof.core.run k s = .next { s with
      pc := s.pc + k
      events := s.events ++ (List.range k).map fun j => .report (s.pc + j) 0 }

/-- R127: the host reads `status`, `cause`, `info`, `pc`, `rb` and any cell when the run has ended;
during a run a read is not defined, which the model renders as no answer (log entry 16). -/
def Obligations.HostReadsAfterTheEnd : Prop :=
  ∀ (s : State) (a : Nat),
    (s.status = .running → ∀ q, hostRead q s = none) ∧
    (s.status ≠ .running →
      hostRead .status s = some (if s.status = .halted then 1 else 2) ∧
      hostRead .cause s = some (s.cause.code : Int) ∧ hostRead .info s = some s.info ∧
      hostRead .pc s = some (s.pc : Int) ∧ hostRead .rb s = some s.rb ∧
      hostRead (.cell a) s = some (s.mem.cell a) ∧
      hostRead .len s = if s.cfg.hostSeesLen then some (s.mem.len : Int) else none)

/-! ## Memory -/

/-- R32: `MemRead(a, 1)`. -/
def Obligations.MemReadRule : Prop :=
  ∀ (m : Memory) (a : Int),
    (a < 0 → memRead m a = .error a) ∧
    (0 ≤ a → a.toNat < m.len → memRead m a = .ok (m.cell a.toNat)) ∧
    (m.wf = true → 0 ≤ a → m.len ≤ a.toNat → memRead m a = .ok 0)

/-- R33: `MemWrite(a, 1, v)`. -/
def Obligations.MemWriteRule : Prop :=
  ∀ (m : Memory) (a v : Int),
    (a < 0 → memWrite m a v = .error a) ∧
    (m.wf = true → 0 ≤ a → ∃ m', memWrite m a v = .ok m' ∧ m'.wf = true ∧
      m'.len = max m.len (a.toNat + 1) ∧ m'.cell a.toNat = v ∧
      (∀ b, b ≠ a.toNat → m'.cell b = m.cell b) ∧
      (∀ b, m.len ≤ b → b < a.toNat → m'.cell b = 0))

/-- R34: a write far beyond the store does not fail and the cells between read 0, the store grows
even when 0 is written, and no step shrinks it. -/
def Obligations.StoreOnlyGrows : Prop :=
  (∀ s t : State, step s = .next t → s.mem.len ≤ t.mem.len) ∧
  (∀ (m : Memory) (a : Nat) (v : Int), m.wf = true → m.len ≤ a →
    ∃ m', memWrite m (a : Int) v = .ok m' ∧ m'.len = a + 1 ∧
      ∀ b, m.len ≤ b → b < a → m'.cell b = 0)

/-- R30: the canonical form is one: two stores with the same length and the same cells are the same
data. -/
def Obligations.EqualStoresAreEqualData : Prop :=
  ∀ m m' : Memory, m.wf = true → m'.wf = true → m.len = m'.len →
    (∀ a, m.cell a = m'.cell a) → m = m'

/-- R20: no program observes the store length: a step from a state with another length differs in
the length alone. -/
def Obligations.StoreLengthUnobservable : Prop :=
  ∀ (s : State) (n : Nat),
    SameButLength (step s) (step (s.setMem { len := n, cells := s.mem.cells }))

/-- R46: a cycle's reads. From two stores that agree on the cells the cycle reads, a step does the
same to everything but the cells it did not touch. -/
def Obligations.CycleReadsOnlyItsCells : Prop :=
  ∀ (s : State) (m : Memory), s.mem.wf = true → m.wf = true →
    (∀ a, a ∈ cycleReads s → m.cell a = s.mem.cell a) →
    SameButUnread s.mem m (step s) (step (s.setMem m))

/-- R46: a cycle's write. A step changes no cell but the one the cycle writes. -/
def Obligations.CycleWritesOnlyItsCell : Prop :=
  ∀ s t : State, step s = .next t →
    ∀ a, cycleWrite s ≠ some a → t.mem.cell a = s.mem.cell a

/-! ## Encoding -/

/-- R50 to R58: decoding the cells of a well-formed instruction gives it back, with every operand
at every value, and leaves the cells after it. -/
def Obligations.DecodeOfEncode : Prop :=
  ∀ (i : Instr) (rest : List Int), i.wf = true →
    decodeCells (encode i ++ rest) = .ok (i, rest)

/-- R55, R59: encoding what a cell of a known class decodes to gives the canonical opcode cell, the
cell with every digit above the last mode digit removed, and the parameter cells. -/
def Obligations.EncodeOfDecodeIsCanonical : Prop :=
  ∀ (raw v1 v2 v3 : Int) (i : Instr) (c : OpClass), 0 ≤ raw →
    OpClass.ofCode (raw.toNat % 100) = some c → decode raw v1 v2 v3 = .ok i →
    encode i = ((raw.toNat % 10 ^ (c.arity + 2) : Nat) : Int) :: [v1, v2, v3].take c.arity

/-- R73 to R75, R123: the decoder as a function of the cell and its decimal digits. -/
def Obligations.DecoderFunction : Prop :=
  ∀ raw v1 v2 v3 : Int,
    (raw < 0 → decode raw v1 v2 v3 = .ok (.negative raw)) ∧
    (0 ≤ raw → raw.toNat % 100 ∉ knownClasses → decode raw v1 v2 v3 = .ok (.unknown raw)) ∧
    ∀ c : OpClass, 0 ≤ raw → raw.toNat % 100 = c.code →
      ((∃ j, 1 ≤ j ∧ j ≤ c.arity ∧ 2 < digit raw.toNat (j + 1)) →
        decode raw v1 v2 v3 = .error (.badMode raw)) ∧
      ((∀ j, 1 ≤ j → j ≤ c.arity → digit raw.toNat (j + 1) ≤ 2) →
        if c.writes = true ∧ digit raw.toNat (c.arity + 1) = 1 then
          decode raw v1 v2 v3 = .error (.immDest raw)
        else
          ∃ i, decode raw v1 v2 v3 = .ok i ∧ i.opcodeCell.toNat % 100 = c.code ∧
            i.params.map Param.value = [v1, v2, v3].take c.arity ∧
            i.params.map (fun p => p.mode.toDigit) =
              (List.range c.arity).map fun j => digit raw.toNat (j + 2))

/-- R55: digits above the last mode digit are not examined. -/
def Obligations.HighDigitsIgnored : Prop :=
  ∀ (raw v1 v2 v3 : Int) (i : Instr) (c : OpClass), 0 ≤ raw →
    OpClass.ofCode (raw.toNat % 100) = some c →
    (decode raw v1 v2 v3 = .ok i ↔
      decode ((raw.toNat % 10 ^ (c.arity + 2) : Nat) : Int) v1 v2 v3 = .ok i)

/-- R60, R62, R63: whatever decodes is well formed. -/
def Obligations.DecodedIsWellFormed : Prop :=
  ∀ (raw v1 v2 v3 : Int) (i : Instr), decode raw v1 v2 v3 = .ok i → i.wf = true

/-- R51, R65: words written out from the encoding tables decode to what they stand for. -/
def Obligations.DecodesWrittenWords : Prop :=
  decode 1002 4 3 4 = .ok (.mul ⟨.position, 4⟩ ⟨.immediate, 3⟩ ⟨.position, 4⟩) ∧
  decode 21101 5 6 3 = .ok (.add ⟨.immediate, 5⟩ ⟨.immediate, 6⟩ ⟨.relative, 3⟩) ∧
  decode 203 2 0 0 = .ok (.inp ⟨.relative, 2⟩) ∧
  decode 2105 1 0 0 = .ok (.jt ⟨.immediate, 1⟩ ⟨.relative, 0⟩) ∧
  decode 107 8 21 20 = .ok (.lt ⟨.immediate, 8⟩ ⟨.position, 21⟩ ⟨.position, 20⟩) ∧
  decode 109 (-7) 0 0 = .ok (.arb ⟨.immediate, -7⟩) ∧
  decode 1099 0 0 0 = .ok .halt ∧ decode 5000 0 0 0 = .ok (.unknown 5000) ∧
  decode 10301 0 0 0 = .error (.badMode 10301) ∧ decode 103 0 0 0 = .error (.immDest 103)

/-! ## The cycle -/

/-- R70: a step of a running engine whose cells at `pc` decode to `i` is `exec i` at that state,
with nothing around it: the meaning itself moves `pc` (R81). -/
def Obligations.StepRunsDecoded : Prop :=
  ∀ (s : State) (i : Instr), s.status = .running →
    decode (s.mem.cell s.pc) (s.mem.cell (s.pc + 1)) (s.mem.cell (s.pc + 2))
      (s.mem.cell (s.pc + 3)) = .ok i →
    step s = exec i s

/-- R15, R70: a stopped engine takes no step. That `step` then answers the same state is the
model's choice (log entry 6). -/
def Obligations.StoppedEngineStays : Prop :=
  ∀ s : State, s.status ≠ .running → step s = .next s

/-- R70: a step of a running engine is the `Cycle` of the rule, written over raw cells and decimal
digits (`digitCycle`). What a hold leaves in `pending`, and the place of R35's refusal, are the
model's choice (log entries 7, 9). -/
def Obligations.StepIsDigitCycle : Prop :=
  ∀ s : State, s.status = .running → step s = digitCycle s

/-! ## What each instruction does -/

/-- R90: ADD on operands that resolve writes their exact sum at its destination and moves `pc` by
4. -/
def Obligations.AddStoresSum : Prop :=
  ∀ (p1 p2 p3 : Param) (s : State), s.mem.wf = true → readable s p1 = true →
    readable s p2 = true → writable s p3 = true →
    s.fits (operandValue s p1 + operandValue s p2) = true →
    s.allowsWrite (destCell s p3) = true →
    ∃ t, exec (.add p1 p2 p3) s = .next t ∧
      Stored s t (destCell s p3) (operandValue s p1 + operandValue s p2) 4

/-- R91: MUL on operands that resolve writes their exact product at its destination and moves `pc`
by 4. -/
def Obligations.MulStoresProduct : Prop :=
  ∀ (p1 p2 p3 : Param) (s : State), s.mem.wf = true → readable s p1 = true →
    readable s p2 = true → writable s p3 = true →
    s.fits (operandValue s p1 * operandValue s p2) = true →
    s.allowsWrite (destCell s p3) = true →
    ∃ t, exec (.mul p1 p2 p3) s = .next t ∧
      Stored s t (destCell s p3) (operandValue s p1 * operandValue s p2) 4

/-- R95: LT writes 1 when operand 1 is below operand 2 in the signed order, else 0; it never
overflows. -/
def Obligations.LtStoresTruth : Prop :=
  ∀ (p1 p2 p3 : Param) (s : State), s.mem.wf = true → readable s p1 = true →
    readable s p2 = true → writable s p3 = true → s.allowsWrite (destCell s p3) = true →
    ∃ t, exec (.lt p1 p2 p3) s = .next t ∧
      Stored s t (destCell s p3) (if operandValue s p1 < operandValue s p2 then 1 else 0) 4

/-- R96: EQ writes 1 when the operands are the same integer, else 0; it never overflows. -/
def Obligations.EqStoresTruth : Prop :=
  ∀ (p1 p2 p3 : Param) (s : State), s.mem.wf = true → readable s p1 = true →
    readable s p2 = true → writable s p3 = true → s.allowsWrite (destCell s p3) = true →
    ∃ t, exec (.eq p1 p2 p3) s = .next t ∧
      Stored s t (destCell s p3) (if operandValue s p1 = operandValue s p2 then 1 else 0) 4

/-- R100, R108: IN, when the input port delivers `v`, writes it unchanged at its destination,
records the one transaction, and moves `pc` by 2. -/
def Obligations.InStoresDelivered : Prop :=
  ∀ (p1 : Param) (v : Int) (s : State), s.mem.wf = true → writable s p1 = true →
    s.inAnswer = .value v → s.fits v = true → s.allowsWrite (destCell s p1) = true →
    ∃ t, exec (.inp p1) s = .next t ∧
      Stored { s with
        input := s.input.next
        pending := none
        events := s.events ++ [.input v] } t (destCell s p1) v 2

/-- R101, R105, R108: OUT, when the output port accepts, hands over its operand unchanged in one
transaction and moves `pc` by 2; no cell and no register else changes. -/
def Obligations.OutHandsOver : Prop :=
  ∀ (p1 : Param) (s : State), readable s p1 = true → s.outAnswer (operandValue s p1) = .accepted →
    exec (.out p1) s = .next { s with
      output := s.output.next
      pending := none
      events := s.events ++ [.output (operandValue s p1)]
      pc := s.pc + 2 }

/-- R103, R106: while a port has not answered, IN and OUT hold: `M`, `pc`, `rb`, `status` and the
history stay. That `pending` names the port is the model's choice (log entry 7). -/
def Obligations.PortsHold : Prop :=
  ∀ (p1 : Param) (s : State),
    (writable s p1 = true → s.inAnswer = .notYet →
      exec (.inp p1) s = .next { s with input := s.input.next, pending := some .input }) ∧
    (readable s p1 = true → s.outAnswer (operandValue s p1) = .notYet →
      exec (.out p1) s = .next { s with output := s.output.next, pending := some .output })

/-- R104, R106, R146: a port that answers `Fail` faults `PortFailure` with 0 for the input port and
1 for the output port; nothing is stored, handed over or advanced. -/
def Obligations.PortFailuresFault : Prop :=
  ∀ (p1 : Param) (s : State),
    (writable s p1 = true → s.inAnswer = .fail →
      FaultsWith { s with input := s.input.next } (exec (.inp p1) s) .portFailure 0) ∧
    (readable s p1 = true → s.outAnswer (operandValue s p1) = .fail →
      FaultsWith { s with output := s.output.next } (exec (.out p1) s) .portFailure 1)

/-- R5, R102, R105, R130: a port that is not scripted is the free environment: IN and OUT do what
its answer says, whatever it is, and it is never asked the same look twice. The environment's
number and count of looks are the model's own fields (log entry 3). -/
def Obligations.FreePortsAskEnvironment : Prop :=
  ∀ (p1 : Param) (s : State) (env look : Nat),
    (s.mem.wf = true → writable s p1 = true → s.allowsWrite (destCell s p1) = true →
      s.input = { queue := [], rest := .environment env look } →
      ∃ t, exec (.inp p1) s = .next t ∧
        t.input = { queue := [], rest := .environment env (look + 1) } ∧
        match Config.inputAnswer env look s.events with
        | .value v =>
          if s.fits v = true then
            t.mem.cell (destCell s p1) = v ∧ t.pc = s.pc + 2 ∧ t.status = s.status ∧
              t.events = s.events ++ [.input v]
          else t.status = .faulted ∧ t.cause = .arithmeticOverflow ∧ t.info = 3
        | .notYet => t.mem = s.mem ∧ t.pc = s.pc ∧ t.status = s.status ∧ t.events = s.events
        | .fail => t.status = .faulted ∧ t.cause = .portFailure ∧ t.info = 0) ∧
    (readable s p1 = true → s.output = { queue := [], rest := .environment env look } →
      ∃ t, exec (.out p1) s = .next t ∧ t.mem = s.mem ∧
        t.output = { queue := [], rest := .environment env (look + 1) } ∧
        match Config.outputAnswer env look s.events (operandValue s p1) with
        | .accepted =>
          t.pc = s.pc + 2 ∧ t.status = s.status ∧
            t.events = s.events ++ [.output (operandValue s p1)]
        | .notYet => t.pc = s.pc ∧ t.status = s.status ∧ t.events = s.events
        | .fail => t.status = .faulted ∧ t.cause = .portFailure ∧ t.info = 1)

/-- R110, R97: JT jumps to operand 2 when operand 1 is not 0, negative ones included, else moves
`pc` by 3. -/
def Obligations.JtBranches : Prop :=
  ∀ (p1 p2 : Param) (s : State), readable s p1 = true → readable s p2 = true →
    (operandValue s p1 ≠ 0 → 0 ≤ operandValue s p2 →
      exec (.jt p1 p2) s = .next { s with pc := (operandValue s p2).toNat }) ∧
    (operandValue s p1 = 0 → exec (.jt p1 p2) s = .next { s with pc := s.pc + 3 })

/-- R111, R97: JF jumps to operand 2 when operand 1 is 0, else moves `pc` by 3. -/
def Obligations.JfBranches : Prop :=
  ∀ (p1 p2 : Param) (s : State), readable s p1 = true → readable s p2 = true →
    (operandValue s p1 = 0 → 0 ≤ operandValue s p2 →
      exec (.jf p1 p2) s = .next { s with pc := (operandValue s p2).toNat }) ∧
    (operandValue s p1 ≠ 0 → exec (.jf p1 p2) s = .next { s with pc := s.pc + 3 })

/-- R115: ARB adds its operand, resolved with the old `rb`, to `rb` and moves `pc` by 2. -/
def Obligations.ArbAddsToBase : Prop :=
  ∀ (p1 : Param) (s : State), readable s p1 = true →
    s.fits (s.rb + operandValue s p1) = true →
    exec (.arb p1) s = .next { s with rb := s.rb + operandValue s p1, pc := s.pc + 2 }

/-- R116: a non-negative cell of class 99, whatever its higher digits, halts the engine: only
`status` changes. -/
def Obligations.HaltStops : Prop :=
  (∀ s : State, exec .halt s = .next { s with status := .halted }) ∧
  (∀ s : State, s.status = .running → 0 ≤ s.mem.cell s.pc →
    (s.mem.cell s.pc).toNat % 100 = 99 → step s = .next { s with status := .halted })

/-- R117, R119, R60: under policy SKIP a cell of no known class is reported and skipped: only `pc`
and the history change. -/
def Obligations.UnknownIsSkipped : Prop :=
  (∀ (raw : Int) (s : State), s.cfg.unknownPolicy = .skip →
    exec (.unknown raw) s = .next { s with
      events := s.events ++ [.report s.pc raw]
      pc := s.pc + 1 }) ∧
  (∀ s : State, s.status = .running → s.cfg.unknownPolicy = .skip → 0 ≤ s.mem.cell s.pc →
    (s.mem.cell s.pc).toNat % 100 ∉ knownClasses →
    step s = .next { s with
      events := s.events ++ [.report s.pc (s.mem.cell s.pc)]
      pc := s.pc + 1 })

/-- R118, R148: under policy FAULT a cell of no known class raises `UnknownOpcode`; on every other
cell the two policies give the same step. -/
def Obligations.UnknownFaultPolicy : Prop :=
  (∀ s : State, s.status = .running → s.cfg.unknownPolicy = .fault → 0 ≤ s.mem.cell s.pc →
    (s.mem.cell s.pc).toNat % 100 ∉ knownClasses →
    FaultsWith s (step s) .unknownOpcode (s.mem.cell s.pc)) ∧
  (∀ (s : State) (u : UnknownPolicy),
    (s.mem.cell s.pc < 0 ∨ (s.mem.cell s.pc).toNat % 100 ∈ knownClasses) →
    SameButPolicy u (step s) (step (s.setPolicy u)))

/-- R63, R145: fetching a negative cell raises `NegativeInstruction` with the cell, and no other
fetch raises it. -/
def Obligations.NegativeCellFaults : Prop :=
  (∀ (raw : Int) (s : State),
    FaultsWith s (exec (.negative raw) s) .negativeInstruction raw) ∧
  (∀ s : State, s.status = .running → s.mem.cell s.pc < 0 →
    FaultsWith s (step s) .negativeInstruction (s.mem.cell s.pc)) ∧
  (∀ s t : State, s.status = .running → 0 ≤ s.mem.cell s.pc → step s = .next t →
    t.status = .faulted → t.cause ≠ .negativeInstruction)

/-! ## Faults -/

/-- R61, R144: a mode digit 3..9 within the arity raises `InvalidMode` with the opcode cell and has
no effect, and no other cell does. -/
def Obligations.InvalidModeFaults : Prop :=
  (∀ (s : State) (c : OpClass) (j : Nat), s.status = .running → 0 ≤ s.mem.cell s.pc →
    (s.mem.cell s.pc).toNat % 100 = c.code → 1 ≤ j → j ≤ c.arity →
    2 < digit (s.mem.cell s.pc).toNat (j + 1) →
    FaultsWith s (step s) .invalidMode (s.mem.cell s.pc)) ∧
  (∀ s t : State, s.status = .running → step s = .next t → t.status = .faulted →
    t.cause = .invalidMode →
    0 ≤ s.mem.cell s.pc ∧ ∃ (c : OpClass) (j : Nat),
      (s.mem.cell s.pc).toNat % 100 = c.code ∧ 1 ≤ j ∧ j ≤ c.arity ∧
        2 < digit (s.mem.cell s.pc).toNat (j + 1))

/-- R62, R143 under the order of R75: a destination in mode 1, the used mode digits being modes,
raises `ImmediateDestination` with the opcode cell; nothing is written and the input port is not
called. No fetched cell raises it otherwise. -/
def Obligations.ImmediateDestinationFaults : Prop :=
  (∀ (s : State) (c : OpClass), s.status = .running → 0 ≤ s.mem.cell s.pc →
    (s.mem.cell s.pc).toNat % 100 = c.code → c.writes = true →
    (∀ j, 1 ≤ j → j ≤ c.arity → digit (s.mem.cell s.pc).toNat (j + 1) ≤ 2) →
    digit (s.mem.cell s.pc).toNat (c.arity + 1) = 1 →
    FaultsWith s (step s) .immediateDestination (s.mem.cell s.pc)) ∧
  (∀ s t : State, s.status = .running → step s = .next t → t.status = .faulted →
    t.cause = .immediateDestination →
    0 ≤ s.mem.cell s.pc ∧ ∃ c : OpClass, (s.mem.cell s.pc).toNat % 100 = c.code ∧
      c.writes = true ∧ digit (s.mem.cell s.pc).toNat (c.arity + 1) = 1)

/-- R142, R151 lines 5 to 7: ADD, MUL, LT and EQ report the first negative address in the order
operand 1, operand 2, destination. -/
def Obligations.AddressFaultOrder : Prop :=
  ∀ (p1 p2 p3 : Param) (s : State) (i : Instr) (d : Int),
    i ∈ [Instr.add p1 p2 p3, .mul p1 p2 p3, .lt p1 p2 p3, .eq p1 p2 p3] →
    destAddress s p3 = some d →
    (∀ a, resolveRead s p1 = .error a → FaultsWith s (exec i s) .invalidAddress a) ∧
    (∀ a, readable s p1 = true → resolveRead s p2 = .error a →
      FaultsWith s (exec i s) .invalidAddress a) ∧
    (readable s p1 = true → readable s p2 = true → d < 0 →
      FaultsWith s (exec i s) .invalidAddress d)

/-- R142, R100: OUT and ARB fault on a negative operand address, IN on a negative destination
address; the port has not been called, so it is as it was. -/
def Obligations.OneParameterAddressFaults : Prop :=
  ∀ (p1 : Param) (s : State) (a : Int),
    (resolveRead s p1 = .error a →
      FaultsWith s (exec (.out p1) s) .invalidAddress a ∧
      FaultsWith s (exec (.arb p1) s) .invalidAddress a) ∧
    (destAddress s p1 = some a → a < 0 → FaultsWith s (exec (.inp p1) s) .invalidAddress a)

/-- R112: both operands of a jump are resolved, taken or not: a negative address in either faults. -/
def Obligations.JumpResolvesBothOperands : Prop :=
  ∀ (p1 p2 : Param) (s : State) (i : Instr) (a : Int), i ∈ [Instr.jt p1 p2, .jf p1 p2] →
    (resolveRead s p1 = .error a → FaultsWith s (exec i s) .invalidAddress a) ∧
    (readable s p1 = true → resolveRead s p2 = .error a →
      FaultsWith s (exec i s) .invalidAddress a)

/-- R113: a taken jump to a negative target raises `InvalidAddress` in its own cycle, with `pc` at
the jump. -/
def Obligations.NegativeTargetFaults : Prop :=
  ∀ (p1 p2 : Param) (s : State), readable s p1 = true → readable s p2 = true →
    operandValue s p2 < 0 →
    (operandValue s p1 ≠ 0 →
      FaultsWith s (exec (.jt p1 p2) s) .invalidAddress (operandValue s p2)) ∧
    (operandValue s p1 = 0 →
      FaultsWith s (exec (.jf p1 p2) s) .invalidAddress (operandValue s p2))

/-- R147, R92: in a finite build a sum, a product, a new `rb` or a delivered value outside
`-2^(n-1) .. 2^(n-1)-1` raises `ArithmeticOverflow` with the class, and a program with such a cell
is refused; in the unbounded machine every value fits. That a value out of range has been taken
from the input port is the model's choice (log entry 8). -/
def Obligations.OverflowFaults : Prop :=
  (∀ (s : State) (v : Int), s.fits v = false ↔
    ∃ n, s.cfg.cellBits = some n ∧ (v < -(2 ^ (n - 1) : Int) ∨ (2 ^ (n - 1) : Int) ≤ v)) ∧
  (∀ (p1 p2 p3 : Param) (s : State), readable s p1 = true → readable s p2 = true →
    writable s p3 = true →
    (s.fits (operandValue s p1 + operandValue s p2) = false →
      FaultsWith s (exec (.add p1 p2 p3) s) .arithmeticOverflow 1) ∧
    (s.fits (operandValue s p1 * operandValue s p2) = false →
      FaultsWith s (exec (.mul p1 p2 p3) s) .arithmeticOverflow 2)) ∧
  (∀ (p1 : Param) (s : State), readable s p1 = true →
    s.fits (s.rb + operandValue s p1) = false →
    FaultsWith s (exec (.arb p1) s) .arithmeticOverflow 9) ∧
  (∀ (p1 : Param) (s : State) (v : Int), writable s p1 = true → s.inAnswer = .value v →
    s.fits v = false →
    FaultsWith { s with input := s.input.next } (exec (.inp p1) s) .arithmeticOverflow 3) ∧
  (∀ (program : List Int) (s : State), (∃ v, v ∈ program ∧ s.fits v = false) →
    hostReset program s = .refused .programOutOfRange)

/-- R141: a step that faults leaves `M`, `pc`, `rb` and the history as they were and records a
cause; no port has been asked unless the fault is the port's answer (R146) or the value IN was
delivered (R147, class 3). -/
def Obligations.FaultLeavesState : Prop :=
  ∀ s t : State, s.status = .running → step s = .next t → t.status = .faulted →
    t.mem = s.mem ∧ t.pc = s.pc ∧ t.rb = s.rb ∧ t.events = s.events ∧ t.cfg = s.cfg ∧
      t.cause ≠ .none ∧
      (t.cause ≠ .portFailure → ¬(t.cause = .arithmeticOverflow ∧ t.info = 3) →
        t.input = s.input ∧ t.output = s.output)

/-- R149: which cycle can raise which fault; an overflow only in a finite build, an unknown opcode
only under policy FAULT. -/
def Obligations.FaultsByClass : Prop :=
  ∀ s t : State, s.status = .running → step s = .next t → t.status = .faulted →
    t.cause ∈ cellFaults (s.mem.cell s.pc) ∧
      (t.cause = .arithmeticOverflow → s.cfg.cellBits ≠ none) ∧
      (t.cause = .unknownOpcode → s.cfg.unknownPolicy = .fault)

/-- R35, R71: every step answers a next state, but that a memory-bounded model refuses one whose
write is at or beyond `MEM_CAP`. -/
def Obligations.RefusesOnlyBeyondCap : Prop :=
  ∀ s : State, (∃ t, step s = .next t) ∨
    ∃ cap a, s.cfg.memCap = some cap ∧ cap ≤ a ∧ cycleWrite s = some a ∧
      step s = .refused (.memCapExceeded a)

/-! ## Rules of the whole machine -/

/-- R13, R115: only ARB changes `rb`. -/
def Obligations.OnlyArbChangesBase : Prop :=
  ∀ s t : State, step s = .next t → t.rb ≠ s.rb →
    s.status = .running ∧ 0 ≤ s.mem.cell s.pc ∧ (s.mem.cell s.pc).toNat % 100 = 9

/-- R15: from `RUNNING` exactly a HALT leads to `HALTED`, exactly a fault to `FAULTED`. -/
def Obligations.StatusTransitions : Prop :=
  ∀ s t : State, s.status = .running → s.cause = .none → step s = .next t →
    (t.status = .halted ↔ 0 ≤ s.mem.cell s.pc ∧ (s.mem.cell s.pc).toNat % 100 = 99) ∧
      (t.status = .faulted ↔ t.cause ≠ .none)

/-- R71, R108, R119: a step appends at most one event: the value IN was delivered, the value OUT
handed over, or the report of a skipped cell. -/
def Obligations.AtMostOneEvent : Prop :=
  ∀ s t : State, step s = .next t →
    t.events = s.events ∨
    (0 ≤ s.mem.cell s.pc ∧
      ((∃ v, t.events = s.events ++ [.input v] ∧ (s.mem.cell s.pc).toNat % 100 = 3 ∧
          s.inAnswer = .value v) ∨
        (∃ v, t.events = s.events ++ [.output v] ∧ (s.mem.cell s.pc).toNat % 100 = 4 ∧
          s.outAnswer v = .accepted) ∨
        (t.events = s.events ++ [.report s.pc (s.mem.cell s.pc)] ∧
          (s.mem.cell s.pc).toNat % 100 ∉ knownClasses)))

/-- R12, R81: how a step leaves `pc`: unchanged by a halt, a fault or a hold; by a jump its target
or `pc + 3`; else past the instruction's cells. -/
def Obligations.PcAfterStep : Prop :=
  ∀ (s t : State) (i : Instr), Consistent s → s.status = .running → s.fetch = .ok i →
    step s = .next t →
    ((t.status ≠ .running ∨ t.pending ≠ none) → t.pc = s.pc) ∧
    (t.status = .running → t.pending = none →
      match i with
      | .jt _ p2 => t.pc = s.pc + 3 ∨ (t.pc : Int) = operandValue s p2
      | .jf _ p2 => t.pc = s.pc + 3 ∨ (t.pc : Int) = operandValue s p2
      | _ => t.pc = s.pc + i.length)

/-! ## Invariants -/

/-- R16, R30, R103: every step keeps the store canonical, the cause recorded exactly in `FAULTED`,
and a transaction in progress only at a port instruction. -/
def Obligations.StepKeepsConsistent : Prop :=
  ∀ s t : State, Consistent s → step s = .next t → Consistent t

/-- R92, R147: in a finite build every step keeps every cell and `rb` in range. -/
def Obligations.StepKeepsInRange : Prop :=
  ∀ s t : State, InRange s → s.mem.wf = true → step s = .next t → InRange t

/-- R35: every step of a memory-bounded model keeps the store below `MEM_CAP`; and no step changes
the parameters (log entry 1). -/
def Obligations.StepKeepsWithinCap : Prop :=
  ∀ s t : State, step s = .next t → t.cfg = s.cfg ∧ (WithinCap s → WithinCap t)

/-- R24: the state after reset meets the invariants. -/
def Obligations.ResetMeetsInvariants : Prop :=
  Consistent State.reset ∧ InRange State.reset ∧ WithinCap State.reset

/-- R170, R147: a `Reset` that is not refused leads to a state that meets the invariants. That a
program longer than `MEM_CAP` is refused is the model's choice (log entry 9). -/
def Obligations.LoadedMeetsInvariants : Prop :=
  ∀ (program : List Int) (s t : State), s.cfg.wf = true → hostReset program s = .next t →
    Consistent t ∧ InRange t ∧ WithinCap t

/-! ## Frames -/

/-- R46, R81, R141: ADD, MUL, LT and EQ change the destination's cell and `pc`, or take a fault and
change nothing else. -/
def Obligations.FrameThreeParameter : Prop :=
  ∀ (p1 p2 p3 : Param) (s t : State) (i : Instr),
    i ∈ [Instr.add p1 p2 p3, .mul p1 p2 p3, .lt p1 p2 p3, .eq p1 p2 p3] →
    exec i s = .next t →
    (t = { s with mem := t.mem, pc := t.pc } ∨ FaultTaken s t) ∧
      (∀ d, destAddress s p3 = some d → ∀ b : Nat, (b : Int) ≠ d → t.mem.cell b = s.mem.cell b)

/-- R100, R103, R141: IN changes the destination's cell, `pc`, the input port, the transaction in
progress and the history, or takes a fault; every other cell, `rb` and the output port stay. -/
def Obligations.FrameIn : Prop :=
  ∀ (p1 : Param) (s t : State), exec (.inp p1) s = .next t →
    (t = { s with
        mem := t.mem
        pc := t.pc
        input := s.input.next
        pending := t.pending
        events := t.events } ∨
      FaultTaken s t ∨ FaultTaken { s with input := s.input.next, pending := none } t) ∧
    (∀ d, destAddress s p1 = some d → ∀ b : Nat, (b : Int) ≠ d → t.mem.cell b = s.mem.cell b)

/-- R101, R103, R141: OUT changes `pc`, the output port, the transaction in progress and the
history, or takes a fault; every cell, `rb` and the input port stay. -/
def Obligations.FrameOut : Prop :=
  ∀ (p1 : Param) (s t : State), exec (.out p1) s = .next t →
    (t = { s with
        pc := t.pc
        output := s.output.next
        pending := t.pending
        events := t.events } ∨
      FaultTaken s t ∨ FaultTaken { s with output := s.output.next, pending := none } t) ∧
    (∀ b, t.mem.cell b = s.mem.cell b)

/-- R110, R111, R141: JT and JF change `pc` alone, or take a fault; every cell stays. -/
def Obligations.FrameJumps : Prop :=
  ∀ (p1 p2 : Param) (s t : State) (i : Instr), i ∈ [Instr.jt p1 p2, .jf p1 p2] →
    exec i s = .next t →
    (t = { s with pc := t.pc } ∨ FaultTaken s t) ∧ (∀ b, t.mem.cell b = s.mem.cell b)

/-- R115 to R118, R141, R145: ARB changes `rb` and `pc` or takes a fault, HALT changes `status`, an
unknown cell changes `pc` and the history or takes a fault, a negative cell takes a fault; every
memory cell stays. -/
def Obligations.FrameSystem : Prop :=
  ∀ (p1 : Param) (raw : Int) (s t : State),
    (exec (.arb p1) s = .next t →
      (t = { s with rb := t.rb, pc := t.pc } ∨ FaultTaken s t) ∧
        ∀ b, t.mem.cell b = s.mem.cell b) ∧
    (exec .halt s = .next t →
      t = { s with status := t.status } ∧ ∀ b, t.mem.cell b = s.mem.cell b) ∧
    (exec (.unknown raw) s = .next t →
      (t = { s with pc := t.pc, events := t.events } ∨ FaultTaken s t) ∧
        ∀ b, t.mem.cell b = s.mem.cell b) ∧
    (exec (.negative raw) s = .next t → FaultTaken s t ∧ ∀ b, t.mem.cell b = s.mem.cell b)

end
end

