-- ==== Sys2Proof/Laws/Decode.lean ====
section
/-!
SUPPORT. The tables of the decoder and the encoder against each other, and what each format of the
decoder can answer (spec/30_encoding.md R51 to R62).
-/
namespace Sys2Proof

/-! ## The tables -/

@[simp] theorem OpClass.ofCode_code (c : OpClass) : OpClass.ofCode c.code = some c := by
  cases c <;> rfl

theorem OpClass.code_of_ofCode {n : Nat} {c : OpClass} (h : OpClass.ofCode n = some c) :
    n = c.code := by
  unfold OpClass.ofCode at h
  split at h <;> simp_all <;> subst h <;> rfl

theorem OpClass.code_mem (c : OpClass) : c.code ∈ knownClasses := by cases c <;> decide

theorem OpClass.ofCode_eq_none_iff (n : Nat) : OpClass.ofCode n = none ↔ n ∉ knownClasses := by
  constructor
  · intro h hn
    simp only [knownClasses, List.mem_cons, List.not_mem_nil, or_false] at hn
    rcases hn with rfl | rfl | rfl | rfl | rfl | rfl | rfl | rfl | rfl | rfl <;> simp [OpClass.ofCode] at h
  · intro h
    cases hc : OpClass.ofCode n with
    | none => rfl
    | some c => exact absurd (OpClass.code_of_ofCode hc ▸ c.code_mem) h

@[simp] theorem Mode.ofDigit_toDigit (m : Mode) : Mode.ofDigit m.toDigit = some m := by
  cases m <;> rfl

theorem Mode.digit_of_ofDigit {n : Nat} {m : Mode} (h : Mode.ofDigit n = some m) :
    n = m.toDigit := by
  unfold Mode.ofDigit at h
  split at h <;> simp_all <;> subst h <;> rfl

theorem Mode.ofDigit_eq_none_iff (n : Nat) : Mode.ofDigit n = none ↔ 2 < n := by
  unfold Mode.ofDigit
  split <;> simp_all
  omega

theorem Mode.toDigit_le (m : Mode) : m.toDigit ≤ 2 := by cases m <;> decide

theorem OpClass.code_lt (c : OpClass) : c.code < 100 := by cases c <;> decide

/-! ## The formats -/

theorem decodeR_ok {raw : Int} {mk : Mode → Instr} {i : Instr} (h : decodeR raw mk = .ok i) :
    ∃ m, paramMode raw 1 = some m ∧ i = mk m := by
  unfold decodeR at h
  split at h
  · cases h
  · exact ⟨_, ‹_›, by simpa using h.symm⟩

theorem decodeW_ok {raw : Int} {mk : Mode → Instr} {i : Instr} (h : decodeW raw mk = .ok i) :
    ∃ m, m ≠ .immediate ∧ paramMode raw 1 = some m ∧ i = mk m := by
  unfold decodeW at h
  split at h
  · cases h
  · cases h
  · refine ⟨_, fun hm => ?_, ‹_›, by simpa using h.symm⟩
    subst hm
    contradiction

theorem decodeRR_ok {raw : Int} {mk : Mode → Mode → Instr} {i : Instr}
    (h : decodeRR raw mk = .ok i) :
    ∃ m1 m2, paramMode raw 1 = some m1 ∧ paramMode raw 2 = some m2 ∧ i = mk m1 m2 := by
  unfold decodeRR at h
  split at h
  · exact ⟨_, _, ‹_›, ‹_›, by simpa using h.symm⟩
  · cases h

theorem decodeRRW_ok {raw : Int} {mk : Mode → Mode → Mode → Instr} {i : Instr}
    (h : decodeRRW raw mk = .ok i) :
    ∃ m1 m2 m3, m3 ≠ .immediate ∧ paramMode raw 1 = some m1 ∧ paramMode raw 2 = some m2 ∧
      paramMode raw 3 = some m3 ∧ i = mk m1 m2 m3 := by
  unfold decodeRRW at h
  split at h
  · cases h
  · refine ⟨_, _, _, fun hm => ?_, ‹_›, ‹_›, ‹_›, by simpa using h.symm⟩
    subst hm
    simp_all
  · cases h

/-- The error of a refused cell names the cell itself. -/
theorem decodeR_error {raw : Int} {mk : Mode → Instr} {e : DecodeError}
    (h : decodeR raw mk = .error e) : e = .badMode raw := by
  unfold decodeR at h
  split at h
  · simpa using h.symm
  · cases h

theorem decodeW_error {raw : Int} {mk : Mode → Instr} {e : DecodeError}
    (h : decodeW raw mk = .error e) : e = .badMode raw ∨ e = .immDest raw := by
  unfold decodeW at h
  split at h
  · exact .inl (by simpa using h.symm)
  · exact .inr (by simpa using h.symm)
  · cases h

theorem decodeRR_error {raw : Int} {mk : Mode → Mode → Instr} {e : DecodeError}
    (h : decodeRR raw mk = .error e) : e = .badMode raw := by
  unfold decodeRR at h
  split at h
  · cases h
  · simpa using h.symm

theorem decodeRRW_error {raw : Int} {mk : Mode → Mode → Mode → Instr} {e : DecodeError}
    (h : decodeRRW raw mk = .error e) : e = .badMode raw ∨ e = .immDest raw := by
  unfold decodeRRW at h
  split at h
  · exact .inr (by simpa using h.symm)
  · cases h
  · exact .inl (by simpa using h.symm)

/-- What a cell that decodes to `i` is: negative, unknown, or of `i`'s class (R73, R74). -/
theorem decode_ok {raw v1 v2 v3 : Int} {i : Instr} (h : decode raw v1 v2 v3 = .ok i) :
    (raw < 0 ∧ i = .negative raw) ∨
      (0 ≤ raw ∧ OpClass.ofCode (raw.toNat % 100) = none ∧ i = .unknown raw) ∨
      (∃ c, 0 ≤ raw ∧ OpClass.ofCode (raw.toNat % 100) = some c ∧ i.opClass = some c) := by
  unfold decode at h
  split at h
  · exact .inl ⟨‹_›, by simpa using h.symm⟩
  · have h0 : 0 ≤ raw := by omega
    refine .inr ?_
    split at h
    · exact .inl ⟨h0, ‹_›, by simpa using h.symm⟩
    · obtain ⟨_, _, _, _, _, _, _, rfl⟩ := decodeRRW_ok h
      exact .inr ⟨_, h0, ‹_›, rfl⟩
    · obtain ⟨_, _, _, _, _, _, _, rfl⟩ := decodeRRW_ok h
      exact .inr ⟨_, h0, ‹_›, rfl⟩
    · obtain ⟨_, _, _, rfl⟩ := decodeW_ok h
      exact .inr ⟨_, h0, ‹_›, rfl⟩
    · obtain ⟨_, _, rfl⟩ := decodeR_ok h
      exact .inr ⟨_, h0, ‹_›, rfl⟩
    · obtain ⟨_, _, _, _, rfl⟩ := decodeRR_ok h
      exact .inr ⟨_, h0, ‹_›, rfl⟩
    · obtain ⟨_, _, _, _, rfl⟩ := decodeRR_ok h
      exact .inr ⟨_, h0, ‹_›, rfl⟩
    · obtain ⟨_, _, _, _, _, _, _, rfl⟩ := decodeRRW_ok h
      exact .inr ⟨_, h0, ‹_›, rfl⟩
    · obtain ⟨_, _, _, _, _, _, _, rfl⟩ := decodeRRW_ok h
      exact .inr ⟨_, h0, ‹_›, rfl⟩
    · obtain ⟨_, _, rfl⟩ := decodeR_ok h
      exact .inr ⟨_, h0, ‹_›, rfl⟩
    · cases h
      exact .inr ⟨_, h0, ‹_›, rfl⟩

/-- What a refused cell is: non-negative, of a known class, and named by the error (R75). -/
theorem decode_error {raw v1 v2 v3 : Int} {e : DecodeError} (h : decode raw v1 v2 v3 = .error e) :
    ∃ c, 0 ≤ raw ∧ OpClass.ofCode (raw.toNat % 100) = some c ∧ 1 ≤ c.arity ∧
      (e = .badMode raw ∨ (c.writes = true ∧ e = .immDest raw)) := by
  unfold decode at h
  split at h
  · cases h
  · have h0 : 0 ≤ raw := by omega
    split at h
    · cases h
    · exact ⟨_, h0, ‹_›, by decide, (decodeRRW_error h).imp_right fun he => ⟨rfl, he⟩⟩
    · exact ⟨_, h0, ‹_›, by decide, (decodeRRW_error h).imp_right fun he => ⟨rfl, he⟩⟩
    · exact ⟨_, h0, ‹_›, by decide, (decodeW_error h).imp_right fun he => ⟨rfl, he⟩⟩
    · exact ⟨_, h0, ‹_›, by decide, .inl (decodeR_error h)⟩
    · exact ⟨_, h0, ‹_›, by decide, .inl (decodeRR_error h)⟩
    · exact ⟨_, h0, ‹_›, by decide, .inl (decodeRR_error h)⟩
    · exact ⟨_, h0, ‹_›, by decide, (decodeRRW_error h).imp_right fun he => ⟨rfl, he⟩⟩
    · exact ⟨_, h0, ‹_›, by decide, (decodeRRW_error h).imp_right fun he => ⟨rfl, he⟩⟩
    · exact ⟨_, h0, ‹_›, by decide, .inl (decodeR_error h)⟩
    · cases h

/-- The class of a canonical opcode cell (R51, R52). -/
theorem opcodeCell_mod (c : OpClass) (ps : List Param) :
    (opcodeCellOf c ps).toNat % 100 = c.code := by
  have := c.code_lt
  simp only [opcodeCellOf, Int.toNat_natCast]
  omega

end Sys2Proof
end

