-- ==== Sys2Proof/Laws/Memory.lean ====
section
/-!
SUPPORT. The store: what a cell reads after a write, and that every operation keeps the canonical
form (spec/20_memory.md R30 to R33).
-/
namespace Sys2Proof.Machine

open Sys2Proof

/-! ## The list of cells -/

theorem lookupCell_insert_other {a b : Nat} (h : b ≠ a) (v : Int) (l : List (Nat × Int)) :
    lookupCell b (insertCell a v l) = lookupCell b l := by
  induction l with
  | nil => by_cases hv : v = 0 <;> simp [insertCell, lookupCell, hv, h]
  | cons c l ih =>
    obtain ⟨c, w⟩ := c
    by_cases hlt : a < c
    · by_cases hv : v = 0 <;> simp [insertCell, lookupCell, hlt, hv, h]
    · by_cases heq : a = c
      · subst heq
        by_cases hv : v = 0 <;> simp [insertCell, lookupCell, hv, h]
      · simp [insertCell, lookupCell, hlt, heq, ih]

/-- Below the first address a canonical list may hold, it lists nothing. -/
theorem lookupCell_below {lo hi a : Nat} {l : List (Nat × Int)} (h : cellsOk lo hi l = true)
    (ha : a < lo) : lookupCell a l = 0 := by
  induction l generalizing lo with
  | nil => rfl
  | cons c l ih =>
    obtain ⟨c, w⟩ := c
    simp only [cellsOk, Bool.and_eq_true, decide_eq_true_eq] at h
    simp only [lookupCell]
    rw [if_neg (by omega), ih h.2 (by omega)]

/-- At or beyond the end, a canonical list lists nothing. -/
theorem lookupCell_beyond {lo hi a : Nat} {l : List (Nat × Int)} (h : cellsOk lo hi l = true)
    (ha : hi ≤ a) : lookupCell a l = 0 := by
  induction l generalizing lo with
  | nil => rfl
  | cons c l ih =>
    obtain ⟨c, w⟩ := c
    simp only [cellsOk, Bool.and_eq_true, decide_eq_true_eq] at h
    simp only [lookupCell]
    rw [if_neg (by omega), ih h.2]

theorem lookupCell_insert_same {lo hi a : Nat} {l : List (Nat × Int)}
    (h : cellsOk lo hi l = true) (v : Int) : lookupCell a (insertCell a v l) = v := by
  induction l generalizing lo with
  | nil => by_cases hv : v = 0 <;> simp [insertCell, lookupCell, hv]
  | cons c l ih =>
    obtain ⟨c, w⟩ := c
    have h' := h
    simp only [cellsOk, Bool.and_eq_true, decide_eq_true_eq] at h'
    by_cases hlt : a < c
    · by_cases hv : v = 0
      · simp only [insertCell, if_pos hlt, if_pos hv, lookupCell]
        rw [if_neg (by omega), lookupCell_below h'.2 (by omega), hv]
      · simp [insertCell, lookupCell, hlt, hv]
    · by_cases heq : a = c
      · subst heq
        by_cases hv : v = 0
        · simp only [insertCell, if_neg hlt, if_pos hv, if_true]
          rw [lookupCell_below h'.2 (by omega), hv]
        · simp [insertCell, lookupCell, hv]
      · simp [insertCell, lookupCell, hlt, heq, ih h'.2]

theorem cellsOk_mono {lo lo' hi hi' : Nat} {l : List (Nat × Int)} (h : cellsOk lo hi l = true)
    (hlo : lo' ≤ lo) (hhi : hi ≤ hi') : cellsOk lo' hi' l = true := by
  induction l generalizing lo lo' with
  | nil => rfl
  | cons c l ih =>
    obtain ⟨c, w⟩ := c
    simp only [cellsOk, Bool.and_eq_true, decide_eq_true_eq] at h ⊢
    exact ⟨⟨⟨by omega, by omega⟩, h.1.2⟩, ih h.2 (Nat.le_refl _)⟩

theorem cellsOk_insert {lo hi a : Nat} {l : List (Nat × Int)} (h : cellsOk lo hi l = true)
    (hlo : lo ≤ a) (hhi : a < hi) (v : Int) : cellsOk lo hi (insertCell a v l) = true := by
  induction l generalizing lo with
  | nil => by_cases hv : v = 0 <;> simp [insertCell, cellsOk, hv, hlo, hhi]
  | cons c l ih =>
    obtain ⟨c, w⟩ := c
    have h' := h
    simp only [cellsOk, Bool.and_eq_true, decide_eq_true_eq] at h'
    by_cases hlt : a < c
    · by_cases hv : v = 0
      · simpa [insertCell, hlt, hv] using h
      · simp only [insertCell, if_pos hlt, if_neg hv, cellsOk, Bool.and_eq_true, decide_eq_true_eq]
        exact ⟨⟨⟨hlo, hhi⟩, hv⟩, ⟨⟨by omega, h'.1.1.2⟩, h'.1.2⟩, h'.2⟩
    · by_cases heq : a = c
      · subst heq
        by_cases hv : v = 0
        · simp only [insertCell, if_neg hlt, if_pos hv, if_true]
          exact cellsOk_mono h'.2 (by omega) (Nat.le_refl _)
        · simp only [insertCell, if_neg hlt, if_neg hv, if_true, cellsOk, Bool.and_eq_true,
            decide_eq_true_eq]
          exact ⟨⟨⟨hlo, hhi⟩, hv⟩, h'.2⟩
      · simp only [insertCell, if_neg hlt, if_neg heq, cellsOk, Bool.and_eq_true, decide_eq_true_eq]
        exact ⟨h'.1, ih h'.2 (by omega)⟩

/-! ## The store -/

/-- The canonical form's point (R30): nothing is stored at or beyond the length. -/
theorem Memory.cell_beyond {m : Memory} (h : m.wf = true) {a : Nat} (ha : m.len ≤ a) :
    m.cell a = 0 := lookupCell_beyond h ha

@[simp] theorem Memory.put_len (m : Memory) (a : Nat) (v : Int) :
    (m.put a v).len = max m.len (a + 1) := rfl

theorem Memory.cell_put_same {m : Memory} (h : m.wf = true) (a : Nat) (v : Int) :
    (m.put a v).cell a = v := lookupCell_insert_same h v

theorem Memory.cell_put_other (m : Memory) {a b : Nat} (h : b ≠ a) (v : Int) :
    (m.put a v).cell b = m.cell b := lookupCell_insert_other h v m.cells

/-- A write keeps the canonical form. -/
theorem Memory.wf_put {m : Memory} (h : m.wf = true) (a : Nat) (v : Int) :
    (m.put a v).wf = true :=
  cellsOk_insert (cellsOk_mono h (Nat.le_refl _) (Nat.le_max_left ..)) (Nat.zero_le _)
    (Nat.lt_of_lt_of_le (Nat.lt_succ_self a) (Nat.le_max_right ..)) v

/-- Placing cells keeps the canonical form. -/
theorem Memory.wf_place {m : Memory} (h : m.wf = true) (a : Nat) (l : List Int) :
    (m.place a l).wf = true := by
  induction l generalizing m a with
  | nil => exact h
  | cons v l ih => exact ih (Memory.wf_put h a v) (a + 1)

theorem cellsOk_program (a : Nat) (l : List Int) : cellsOk a (a + l.length) (programCells a l) = true := by
  induction l generalizing a with
  | nil => rfl
  | cons v l ih =>
    have h := ih (a + 1)
    rw [Nat.add_assoc, Nat.add_comm 1] at h
    by_cases hv : v = 0
    · simp only [programCells, if_pos hv]
      exact cellsOk_mono h (Nat.le_succ a) (Nat.le_refl _)
    · simp only [programCells, if_neg hv, cellsOk, Bool.and_eq_true, decide_eq_true_eq]
      exact ⟨⟨⟨Nat.le_refl a, by simp⟩, hv⟩, h⟩

/-- A loaded program is in the canonical form. -/
theorem Memory.wf_ofProgram (program : List Int) : (Memory.ofProgram program).wf = true := by
  have h := cellsOk_program 0 program
  rwa [Nat.zero_add] at h

/-- The store of `State.reset` is in the canonical form. -/
theorem Memory.wf_reset : State.reset.mem.wf = true := rfl

/-- What `memWrite` does when it succeeds. -/
theorem memWrite_ok {m m' : Memory} {a v : Int} (h : memWrite m a v = .ok m') :
    0 ≤ a ∧ m' = m.put a.toNat v := by
  by_cases ha : a < 0
  · simp [memWrite, ha] at h
  · simp only [memWrite, if_neg ha, Except.ok.injEq] at h
    exact ⟨by omega, h.symm⟩

/-- `memWrite` succeeds at every address that is not negative. -/
theorem memWrite_of_nonneg (m : Memory) {a : Int} (v : Int) (h : 0 ≤ a) :
    memWrite m a v = .ok (m.put a.toNat v) := if_neg (by omega)

/-- `memRead` succeeds at every address that is not negative. -/
theorem memRead_of_nonneg (m : Memory) {a : Int} (h : 0 ≤ a) :
    memRead m a = .ok (m.cell a.toNat) := if_neg (by omega)

end Sys2Proof.Machine
end

