-- ==== Sys2Proof/Laws/State.lean ====
section
/-!
SUPPORT. One lemma per field per update of State: what each named update leaves in each field.
-/
namespace Sys2Proof.Machine

open Sys2Proof

variable (s : State)

@[simp] theorem setMem_cfg (m : Memory) : (s.setMem m).cfg = s.cfg := rfl
@[simp] theorem setMem_mem (m : Memory) : (s.setMem m).mem = m := rfl
@[simp] theorem setMem_pc (m : Memory) : (s.setMem m).pc = s.pc := rfl
@[simp] theorem setMem_rb (m : Memory) : (s.setMem m).rb = s.rb := rfl
@[simp] theorem setMem_status (m : Memory) : (s.setMem m).status = s.status := rfl
@[simp] theorem setMem_cause (m : Memory) : (s.setMem m).cause = s.cause := rfl
@[simp] theorem setMem_info (m : Memory) : (s.setMem m).info = s.info := rfl
@[simp] theorem setMem_pending (m : Memory) : (s.setMem m).pending = s.pending := rfl
@[simp] theorem setMem_input (m : Memory) : (s.setMem m).input = s.input := rfl
@[simp] theorem setMem_output (m : Memory) : (s.setMem m).output = s.output := rfl
@[simp] theorem setMem_events (m : Memory) : (s.setMem m).events = s.events := rfl

@[simp] theorem advance_cfg (k : Nat) : (s.advance k).cfg = s.cfg := rfl
@[simp] theorem advance_mem (k : Nat) : (s.advance k).mem = s.mem := rfl
@[simp] theorem advance_pc (k : Nat) : (s.advance k).pc = s.pc + k := rfl
@[simp] theorem advance_rb (k : Nat) : (s.advance k).rb = s.rb := rfl
@[simp] theorem advance_status (k : Nat) : (s.advance k).status = s.status := rfl
@[simp] theorem advance_cause (k : Nat) : (s.advance k).cause = s.cause := rfl
@[simp] theorem advance_info (k : Nat) : (s.advance k).info = s.info := rfl
@[simp] theorem advance_pending (k : Nat) : (s.advance k).pending = s.pending := rfl
@[simp] theorem advance_input (k : Nat) : (s.advance k).input = s.input := rfl
@[simp] theorem advance_output (k : Nat) : (s.advance k).output = s.output := rfl
@[simp] theorem advance_events (k : Nat) : (s.advance k).events = s.events := rfl

@[simp] theorem jumpTo_cfg (a : Nat) : (s.jumpTo a).cfg = s.cfg := rfl
@[simp] theorem jumpTo_mem (a : Nat) : (s.jumpTo a).mem = s.mem := rfl
@[simp] theorem jumpTo_pc (a : Nat) : (s.jumpTo a).pc = a := rfl
@[simp] theorem jumpTo_rb (a : Nat) : (s.jumpTo a).rb = s.rb := rfl
@[simp] theorem jumpTo_status (a : Nat) : (s.jumpTo a).status = s.status := rfl
@[simp] theorem jumpTo_cause (a : Nat) : (s.jumpTo a).cause = s.cause := rfl
@[simp] theorem jumpTo_info (a : Nat) : (s.jumpTo a).info = s.info := rfl
@[simp] theorem jumpTo_pending (a : Nat) : (s.jumpTo a).pending = s.pending := rfl
@[simp] theorem jumpTo_input (a : Nat) : (s.jumpTo a).input = s.input := rfl
@[simp] theorem jumpTo_output (a : Nat) : (s.jumpTo a).output = s.output := rfl
@[simp] theorem jumpTo_events (a : Nat) : (s.jumpTo a).events = s.events := rfl

@[simp] theorem setRb_cfg (v : Int) : (s.setRb v).cfg = s.cfg := rfl
@[simp] theorem setRb_mem (v : Int) : (s.setRb v).mem = s.mem := rfl
@[simp] theorem setRb_pc (v : Int) : (s.setRb v).pc = s.pc := rfl
@[simp] theorem setRb_rb (v : Int) : (s.setRb v).rb = v := rfl
@[simp] theorem setRb_status (v : Int) : (s.setRb v).status = s.status := rfl
@[simp] theorem setRb_cause (v : Int) : (s.setRb v).cause = s.cause := rfl
@[simp] theorem setRb_info (v : Int) : (s.setRb v).info = s.info := rfl
@[simp] theorem setRb_pending (v : Int) : (s.setRb v).pending = s.pending := rfl
@[simp] theorem setRb_input (v : Int) : (s.setRb v).input = s.input := rfl
@[simp] theorem setRb_output (v : Int) : (s.setRb v).output = s.output := rfl
@[simp] theorem setRb_events (v : Int) : (s.setRb v).events = s.events := rfl

@[simp] theorem halt_cfg : s.halt.cfg = s.cfg := rfl
@[simp] theorem halt_mem : s.halt.mem = s.mem := rfl
@[simp] theorem halt_pc : s.halt.pc = s.pc := rfl
@[simp] theorem halt_rb : s.halt.rb = s.rb := rfl
@[simp] theorem halt_status : s.halt.status = .halted := rfl
@[simp] theorem halt_cause : s.halt.cause = s.cause := rfl
@[simp] theorem halt_info : s.halt.info = s.info := rfl
@[simp] theorem halt_pending : s.halt.pending = s.pending := rfl
@[simp] theorem halt_input : s.halt.input = s.input := rfl
@[simp] theorem halt_output : s.halt.output = s.output := rfl
@[simp] theorem halt_events : s.halt.events = s.events := rfl

@[simp] theorem record_cfg (e : Event) : (s.record e).cfg = s.cfg := rfl
@[simp] theorem record_mem (e : Event) : (s.record e).mem = s.mem := rfl
@[simp] theorem record_pc (e : Event) : (s.record e).pc = s.pc := rfl
@[simp] theorem record_rb (e : Event) : (s.record e).rb = s.rb := rfl
@[simp] theorem record_status (e : Event) : (s.record e).status = s.status := rfl
@[simp] theorem record_cause (e : Event) : (s.record e).cause = s.cause := rfl
@[simp] theorem record_info (e : Event) : (s.record e).info = s.info := rfl
@[simp] theorem record_pending (e : Event) : (s.record e).pending = s.pending := rfl
@[simp] theorem record_input (e : Event) : (s.record e).input = s.input := rfl
@[simp] theorem record_output (e : Event) : (s.record e).output = s.output := rfl
@[simp] theorem record_events (e : Event) : (s.record e).events = s.events ++ [e] := rfl

@[simp] theorem sawInput_cfg (b : Option Port) : (s.sawInput b).cfg = s.cfg := rfl
@[simp] theorem sawInput_mem (b : Option Port) : (s.sawInput b).mem = s.mem := rfl
@[simp] theorem sawInput_pc (b : Option Port) : (s.sawInput b).pc = s.pc := rfl
@[simp] theorem sawInput_rb (b : Option Port) : (s.sawInput b).rb = s.rb := rfl
@[simp] theorem sawInput_status (b : Option Port) : (s.sawInput b).status = s.status := rfl
@[simp] theorem sawInput_cause (b : Option Port) : (s.sawInput b).cause = s.cause := rfl
@[simp] theorem sawInput_info (b : Option Port) : (s.sawInput b).info = s.info := rfl
@[simp] theorem sawInput_pending (b : Option Port) : (s.sawInput b).pending = b := rfl
@[simp] theorem sawInput_input (b : Option Port) : (s.sawInput b).input = s.input.next := rfl
@[simp] theorem sawInput_output (b : Option Port) : (s.sawInput b).output = s.output := rfl
@[simp] theorem sawInput_events (b : Option Port) : (s.sawInput b).events = s.events := rfl

@[simp] theorem sawOutput_cfg (b : Option Port) : (s.sawOutput b).cfg = s.cfg := rfl
@[simp] theorem sawOutput_mem (b : Option Port) : (s.sawOutput b).mem = s.mem := rfl
@[simp] theorem sawOutput_pc (b : Option Port) : (s.sawOutput b).pc = s.pc := rfl
@[simp] theorem sawOutput_rb (b : Option Port) : (s.sawOutput b).rb = s.rb := rfl
@[simp] theorem sawOutput_status (b : Option Port) : (s.sawOutput b).status = s.status := rfl
@[simp] theorem sawOutput_cause (b : Option Port) : (s.sawOutput b).cause = s.cause := rfl
@[simp] theorem sawOutput_info (b : Option Port) : (s.sawOutput b).info = s.info := rfl
@[simp] theorem sawOutput_pending (b : Option Port) : (s.sawOutput b).pending = b := rfl
@[simp] theorem sawOutput_input (b : Option Port) : (s.sawOutput b).input = s.input := rfl
@[simp] theorem sawOutput_output (b : Option Port) : (s.sawOutput b).output = s.output.next := rfl
@[simp] theorem sawOutput_events (b : Option Port) : (s.sawOutput b).events = s.events := rfl

@[simp] theorem raise_cfg (c : FaultCause) (i : Int) : (s.raise c i).cfg = s.cfg := rfl
@[simp] theorem raise_mem (c : FaultCause) (i : Int) : (s.raise c i).mem = s.mem := rfl
@[simp] theorem raise_pc (c : FaultCause) (i : Int) : (s.raise c i).pc = s.pc := rfl
@[simp] theorem raise_rb (c : FaultCause) (i : Int) : (s.raise c i).rb = s.rb := rfl
@[simp] theorem raise_status (c : FaultCause) (i : Int) : (s.raise c i).status = .faulted := rfl
@[simp] theorem raise_cause (c : FaultCause) (i : Int) : (s.raise c i).cause = c := rfl
@[simp] theorem raise_info (c : FaultCause) (i : Int) : (s.raise c i).info = i := rfl
@[simp] theorem raise_pending (c : FaultCause) (i : Int) : (s.raise c i).pending = none := rfl
@[simp] theorem raise_input (c : FaultCause) (i : Int) : (s.raise c i).input = s.input := rfl
@[simp] theorem raise_output (c : FaultCause) (i : Int) : (s.raise c i).output = s.output := rfl
@[simp] theorem raise_events (c : FaultCause) (i : Int) : (s.raise c i).events = s.events := rfl

/-! ## The ports -/

section

variable {α : Type} (free : Nat → Nat → α)

@[simp] theorem PortScript.answer_scripted (a : α) (q : List α) (r : PortRest α) :
    PortScript.answer free { queue := a :: q, rest := r } = a := rfl
@[simp] theorem PortScript.answer_always (a : α) :
    PortScript.answer free { queue := [], rest := .always a } = a := rfl
@[simp] theorem PortScript.answer_environment (env look : Nat) :
    PortScript.answer free { queue := [], rest := .environment env look } = free env look := rfl
@[simp] theorem PortScript.next_scripted (a : α) (q : List α) (r : PortRest α) :
    PortScript.next { queue := a :: q, rest := r } = { queue := q, rest := r } := rfl
@[simp] theorem PortScript.next_always (a : α) :
    PortScript.next { queue := [], rest := .always a } = { queue := [], rest := .always a } := rfl
@[simp] theorem PortScript.next_environment (env look : Nat) :
    PortScript.next { queue := [], rest := .environment (α := α) env look } =
      { queue := [], rest := .environment env (look + 1) } := rfl

end

/-- A delivered value that fits completes the IN (R100). -/
theorem State.received_of_fits {s : State} {v : Int} (d : Nat) (h : s.fits v = true) :
    s.received d (.value v) =
      (((s.sawInput none).record (.input v)).setMem (s.mem.put d v)).advance 2 := if_pos h

/-- A delivered value that does not fit overflows (R147). -/
theorem State.received_of_unfit {s : State} {v : Int} (d : Nat) (h : s.fits v = false) :
    s.received d (.value v) = (s.sawInput none).raise .arithmeticOverflow 3 :=
  if_neg (by simp [h])

end Sys2Proof.Machine
end

