-- ==== Sys2Proof/Laws/Operands.lean ====
section
/-!
SUPPORT. One lemma per shared operation: everything it can do when it answers a next state, and
what it does when its test passes. Proofs about meanings cite these and unfold no operation.
-/
namespace Sys2Proof.Machine

open Sys2Proof

variable {s t : State} {p p1 p2 p3 : Param}

/-! ## Resolving -/

/-- A readable parameter resolves to its operand value (R78). -/
theorem resolveRead_of_readable (h : readable s p = true) :
    resolveRead s p = .ok (operandValue s p) := by
  obtain ⟨m, v⟩ := p
  cases m <;> simp only [readable, decide_eq_true_eq] at h <;>
    simp only [resolveRead, operandValue]
  · exact memRead_of_nonneg _ h
  · exact memRead_of_nonneg _ h

/-- A writable parameter has its address, which is not negative (R79). -/
theorem destAddress_of_writable (h : writable s p = true) :
    ∃ a, destAddress s p = some a ∧ 0 ≤ a ∧ a.toNat = destCell s p := by
  obtain ⟨m, v⟩ := p
  cases m <;> simp only [writable, decide_eq_true_eq, Bool.false_eq_true] at h
  · exact ⟨v, rfl, h, rfl⟩
  · exact ⟨v + s.rb, rfl, h, rfl⟩

/-! ## The operations of a meaning -/

theorem withOperand_next {k : Int → Result} (h : withOperand s p k = .next t) :
    (∃ a, resolveRead s p = .error a ∧ t = s.raise .invalidAddress a) ∨
      (∃ v, resolveRead s p = .ok v ∧ k v = .next t) := by
  unfold withOperand at h
  split at h
  · exact .inl ⟨_, ‹_›, by simpa using h.symm⟩
  · exact .inr ⟨_, ‹_›, h⟩

theorem withOperand_of_readable (k : Int → Result) (h : readable s p = true) :
    withOperand s p k = k (operandValue s p) := by
  simp only [withOperand, resolveRead_of_readable h]

theorem withDest_next {i : Instr} {k : Int → Result} (h : withDest s i p k = .next t) :
    (destAddress s p = none ∧ t = s.raise .immediateDestination i.opcodeCell) ∨
      (∃ a, destAddress s p = some a ∧ k a = .next t) := by
  unfold withDest at h
  split at h
  · exact .inl ⟨‹_›, by simpa using h.symm⟩
  · exact .inr ⟨_, ‹_›, h⟩

theorem withValidAddress_next {a : Int} {k : Result} (h : withValidAddress s a k = .next t) :
    (a < 0 ∧ t = s.raise .invalidAddress a) ∨ (0 ≤ a ∧ k = .next t) := by
  unfold withValidAddress at h
  split at h
  · exact .inl ⟨‹_›, by simpa using h.symm⟩
  · exact .inr ⟨by omega, h⟩

theorem withValidAddress_of_nonneg {a : Int} (k : Result) (h : 0 ≤ a) :
    withValidAddress s a k = k := if_neg (by omega)

theorem withFit_next {c : OpClass} {v : Int} {k : Result} (h : withFit s c v k = .next t) :
    (s.fits v = false ∧ t = s.raise .arithmeticOverflow (c.code : Int)) ∨
      (s.fits v = true ∧ k = .next t) := by
  unfold withFit at h
  cases hf : s.fits v with
  | true => exact .inr ⟨rfl, by simpa [hf] using h⟩
  | false => exact .inl ⟨rfl, by simpa [hf] using h.symm⟩

theorem withFit_of_fits {c : OpClass} {v : Int} (k : Result) (h : s.fits v = true) :
    withFit s c v k = k := if_pos h

/-- Everything format RRW's resolution can do (R80, R151 lines 4 to 7). -/
theorem withRRW_next {i : Instr} {k : Int → Int → Int → Result}
    (h : withRRW s i p1 p2 p3 k = .next t) :
    (∃ c a, ((c = .immediateDestination ∧ destAddress s p3 = none) ∨ c = .invalidAddress) ∧
        t = s.raise c a) ∨
      (∃ o1 o2 d, resolveRead s p1 = .ok o1 ∧ resolveRead s p2 = .ok o2 ∧
        destAddress s p3 = some d ∧ 0 ≤ d ∧ k o1 o2 d = .next t) := by
  unfold withRRW at h
  obtain ⟨hn, rfl⟩ | ⟨d, hd, h⟩ := withDest_next h
  · exact .inl ⟨_, _, .inl ⟨rfl, hn⟩, rfl⟩
  obtain ⟨a, -, rfl⟩ | ⟨o1, h1, h⟩ := withOperand_next h
  · exact .inl ⟨_, a, .inr rfl, rfl⟩
  obtain ⟨a, -, rfl⟩ | ⟨o2, h2, h⟩ := withOperand_next h
  · exact .inl ⟨_, a, .inr rfl, rfl⟩
  obtain ⟨-, rfl⟩ | ⟨hd0, h⟩ := withValidAddress_next h
  · exact .inl ⟨_, d, .inr rfl, rfl⟩
  exact .inr ⟨o1, o2, d, h1, h2, hd, hd0, h⟩

/-- Format RRW's resolution when every parameter resolves. -/
theorem withRRW_of_resolved {i : Instr} (k : Int → Int → Int → Result)
    (h1 : readable s p1 = true) (h2 : readable s p2 = true) (h3 : writable s p3 = true) :
    ∃ d : Int, 0 ≤ d ∧ d.toNat = destCell s p3 ∧
      withRRW s i p1 p2 p3 k = k (operandValue s p1) (operandValue s p2) d := by
  obtain ⟨d, hd, h0, hc⟩ := destAddress_of_writable h3
  refine ⟨d, h0, hc, ?_⟩
  simp only [withRRW, withDest, hd, withOperand_of_readable _ h1, withOperand_of_readable _ h2,
    withValidAddress_of_nonneg _ h0]

/-- Everything the one write of a cycle can do. -/
theorem storeNext_next {d v : Int} {n : Nat} (h : storeNext s d v n = .next t) :
    (d < 0 ∧ t = s.raise .invalidAddress d) ∨
      (0 ≤ d ∧ s.allowsWrite d.toNat = true ∧ t = (s.setMem (s.mem.put d.toNat v)).advance n) := by
  unfold storeNext at h
  by_cases hd : d < 0
  · simp only [memWrite, if_pos hd, Host.Outcome.next.injEq] at h
    exact .inl ⟨hd, h.symm⟩
  · simp only [memWrite, if_neg hd] at h
    split at h
    · exact .inr ⟨by omega, ‹_›, by simpa using h.symm⟩
    · exact absurd h (by simp)

/-- The one write of a cycle at a valid address below the cap. -/
theorem storeNext_of_allowed {d : Int} (v : Int) (n : Nat) (h0 : 0 ≤ d)
    (h : s.allowsWrite d.toNat = true) :
    storeNext s d v n = .next ((s.setMem (s.mem.put d.toNat v)).advance n) := by
  simp only [storeNext, memWrite_of_nonneg _ v h0, h, if_true]

/-- A write leaves what `Stored` says (R33, R81). -/
theorem stored_put (hwf : s.mem.wf = true) (d : Nat) (v : Int) (n : Nat) :
    Stored s ((s.setMem (s.mem.put d v)).advance n) d v n :=
  ⟨Memory.cell_put_same hwf d v, fun _ hb => Memory.cell_put_other _ hb v, rfl, rfl⟩

/-- Everything the end of a jump can do. -/
theorem branch_next {b : Bool} {a : Int} (h : branch s b a = .next t) :
    (b = true ∧ a < 0 ∧ t = s.raise .invalidAddress a) ∨
      (b = true ∧ 0 ≤ a ∧ t = s.jumpTo a.toNat) ∨ (b = false ∧ t = s.advance 3) := by
  unfold branch at h
  cases b with
  | false => exact .inr (.inr ⟨rfl, by simpa using h.symm⟩)
  | true =>
    simp only [if_true] at h
    obtain ⟨ha, rfl⟩ | ⟨ha, h⟩ := withValidAddress_next h
    · exact .inl ⟨rfl, ha, rfl⟩
    · exact .inr (.inl ⟨rfl, ha, by simpa using h.symm⟩)

end Sys2Proof.Machine
end

