-- ==== Sys2Proof/Laws/PerInstr.lean ====
section
/-!
SUPPORT. Statements about every instruction as syntax, one lemma per constructor: the length of its
encoding (spec/30_encoding.md R50) and the class its opcode cell carries (R52, R59).
-/
namespace Sys2Proof.Laws.EncodedLength

open Sys2Proof

/-- R50: an instruction occupies as many cells as its encoding has. -/
def Statement (i : Instr) : Prop := (encode i).length = i.length

theorem add (p1 p2 p3 : Param) : Statement (.add p1 p2 p3) := rfl

theorem mul (p1 p2 p3 : Param) : Statement (.mul p1 p2 p3) := rfl

theorem inp (p1 : Param) : Statement (.inp p1) := rfl

theorem out (p1 : Param) : Statement (.out p1) := rfl

theorem jt (p1 p2 : Param) : Statement (.jt p1 p2) := rfl

theorem jf (p1 p2 : Param) : Statement (.jf p1 p2) := rfl

theorem lt (p1 p2 p3 : Param) : Statement (.lt p1 p2 p3) := rfl

theorem eq (p1 p2 p3 : Param) : Statement (.eq p1 p2 p3) := rfl

theorem arb (p1 : Param) : Statement (.arb p1) := rfl

theorem halt : Statement .halt := rfl

theorem unknown (raw : Int) : Statement (.unknown raw) := rfl

theorem negative (raw : Int) : Statement (.negative raw) := rfl

end Sys2Proof.Laws.EncodedLength

namespace Sys2Proof.Laws.CellClass

open Sys2Proof

/-- R52, R60, R63: the class number of a well-formed instruction's opcode cell is its own; an
unknown cell has none and a negative cell is negative. -/
def Statement (i : Instr) : Prop :=
  i.wf = true →
    match i with
    | .negative raw => raw < 0
    | .unknown raw => 0 ≤ raw ∧ raw.toNat % 100 ∉ knownClasses
    | i => i.opClass = OpClass.ofCode (i.opcodeCell.toNat % 100)

theorem of_cell (c : OpClass) (ps : List Param) :
    some c = OpClass.ofCode ((opcodeCellOf c ps).toNat % 100) := by
  rw [opcodeCell_mod, OpClass.ofCode_code]

theorem add (p1 p2 p3 : Param) : Statement (.add p1 p2 p3) := fun _ => of_cell _ _

theorem mul (p1 p2 p3 : Param) : Statement (.mul p1 p2 p3) := fun _ => of_cell _ _

theorem inp (p1 : Param) : Statement (.inp p1) := fun _ => of_cell _ _

theorem out (p1 : Param) : Statement (.out p1) := fun _ => of_cell _ _

theorem jt (p1 p2 : Param) : Statement (.jt p1 p2) := fun _ => of_cell _ _

theorem jf (p1 p2 : Param) : Statement (.jf p1 p2) := fun _ => of_cell _ _

theorem lt (p1 p2 p3 : Param) : Statement (.lt p1 p2 p3) := fun _ => of_cell _ _

theorem eq (p1 p2 p3 : Param) : Statement (.eq p1 p2 p3) := fun _ => of_cell _ _

theorem arb (p1 : Param) : Statement (.arb p1) := fun _ => of_cell _ _

theorem halt : Statement .halt := fun _ => rfl

theorem unknown (raw : Int) : Statement (.unknown raw) := by
  intro h
  simp only [Instr.wf, Bool.and_eq_true, decide_eq_true_eq, Bool.not_eq_true',
    List.contains_eq_mem, decide_eq_false_iff_not] at h
  exact h

theorem negative (raw : Int) : Statement (.negative raw) := by
  intro h
  simpa [Instr.wf] using h

end Sys2Proof.Laws.CellClass
end

