-- ==== Sys2Proof/Laws/Step.lean ====
section
/-!
SUPPORT. What each meaning can do when it answers a next state, said once per instruction. Whole
machine rules are proved from these by cases over the instruction, and unfold no meaning.
-/
namespace Sys2Proof.Machine

open Sys2Proof

variable {s t : State} {p1 p2 p3 : Param}

/-- The end of ADD, MUL, LT and EQ: a fault, or the one write of `v o1 o2`. -/
def StoresResult (s t : State) (p1 p2 p3 : Param) (v : Int → Int → Int) (c : OpClass) : Prop :=
  (∃ f a, ((f = .immediateDestination ∧ destAddress s p3 = none) ∨ f = .invalidAddress) ∧
      t = s.raise f a) ∨
    (∃ o1 o2 d, resolveRead s p1 = .ok o1 ∧ resolveRead s p2 = .ok o2 ∧
      destAddress s p3 = some d ∧ 0 ≤ d ∧
      ((s.fits (v o1 o2) = false ∧ t = s.raise .arithmeticOverflow (c.code : Int)) ∨
        (s.fits (v o1 o2) = true ∧ s.allowsWrite d.toNat = true ∧
          t = (s.setMem (s.mem.put d.toNat (v o1 o2))).advance 4)))

theorem storesResult_of_checked {i : Instr} {v : Int → Int → Int} {c : OpClass}
    (h : withRRW s i p1 p2 p3 (fun o1 o2 d => withFit s c (v o1 o2) (storeNext s d (v o1 o2) 4)) =
      .next t) : StoresResult s t p1 p2 p3 v c := by
  obtain h | ⟨o1, o2, d, h1, h2, hd, h0, h⟩ := withRRW_next h
  · exact .inl h
  obtain h | ⟨hf, h⟩ := withFit_next h
  · exact .inr ⟨o1, o2, d, h1, h2, hd, h0, .inl h⟩
  obtain ⟨hn, -⟩ | ⟨-, ha, rfl⟩ := storeNext_next h
  · omega
  exact .inr ⟨o1, o2, d, h1, h2, hd, h0, .inr ⟨hf, ha, rfl⟩⟩

theorem execAdd_next (h : execAdd p1 p2 p3 s = .next t) :
    StoresResult s t p1 p2 p3 (· + ·) .add := storesResult_of_checked h

theorem execMul_next (h : execMul p1 p2 p3 s = .next t) :
    StoresResult s t p1 p2 p3 (· * ·) .mul := storesResult_of_checked h

/-- The end of LT and EQ, whose result always fits. -/
def StoresTruth (s t : State) (p1 p2 p3 : Param) (v : Int → Int → Int) : Prop :=
  (∃ f a, ((f = .immediateDestination ∧ destAddress s p3 = none) ∨ f = .invalidAddress) ∧
      t = s.raise f a) ∨
    (∃ o1 o2 d, resolveRead s p1 = .ok o1 ∧ resolveRead s p2 = .ok o2 ∧
      destAddress s p3 = some d ∧ 0 ≤ d ∧ s.allowsWrite d.toNat = true ∧
      t = (s.setMem (s.mem.put d.toNat (v o1 o2))).advance 4)

theorem storesTruth_of {i : Instr} {v : Int → Int → Int}
    (h : withRRW s i p1 p2 p3 (fun o1 o2 d => storeNext s d (v o1 o2) 4) = .next t) :
    StoresTruth s t p1 p2 p3 v := by
  obtain h | ⟨o1, o2, d, h1, h2, hd, h0, h⟩ := withRRW_next h
  · exact .inl h
  obtain ⟨hn, -⟩ | ⟨-, ha, rfl⟩ := storeNext_next h
  · omega
  exact .inr ⟨o1, o2, d, h1, h2, hd, h0, ha, rfl⟩

theorem execLt_next (h : execLt p1 p2 p3 s = .next t) : StoresTruth s t p1 p2 p3 aluLt :=
  storesTruth_of h

theorem execEq_next (h : execEq p1 p2 p3 s = .next t) : StoresTruth s t p1 p2 p3 aluEq :=
  storesTruth_of h

theorem execIn_next (h : execIn p1 s = .next t) :
    (∃ f a, ((f = .immediateDestination ∧ destAddress s p1 = none) ∨ f = .invalidAddress) ∧
      t = s.raise f a) ∨
      (∃ d, destAddress s p1 = some d ∧ 0 ≤ d ∧
        ((s.inAnswer = .notYet ∧ t = s.sawInput (some .input)) ∨
          (s.inAnswer = .fail ∧ t = (s.sawInput none).raise .portFailure 0) ∨
          (∃ v, s.inAnswer = .value v ∧
            ((s.fits v = false ∧ t = (s.sawInput none).raise .arithmeticOverflow 3) ∨
              (s.fits v = true ∧ s.allowsWrite d.toNat = true ∧
                t = (((s.sawInput none).record (.input v)).setMem
                  (s.mem.put d.toNat v)).advance 2))))) := by
  unfold execIn at h
  obtain ⟨hn, rfl⟩ | ⟨d, hd, h⟩ := withDest_next h
  · exact .inl ⟨_, _, .inl ⟨rfl, hn⟩, rfl⟩
  obtain ⟨-, rfl⟩ | ⟨h0, h⟩ := withValidAddress_next h
  · exact .inl ⟨_, _, .inr rfl, rfl⟩
  refine .inr ⟨d, hd, h0, ?_⟩
  split at h
  · cases h
  rename_i hn
  obtain rfl := Host.Outcome.next.inj h
  cases hx : s.inAnswer with
  | notYet => exact .inl ⟨rfl, rfl⟩
  | fail => exact .inr (.inl ⟨rfl, rfl⟩)
  | value v =>
    refine .inr (.inr ⟨v, rfl, ?_⟩)
    cases hf : s.fits v with
    | false => exact .inl ⟨rfl, State.received_of_unfit d.toNat hf⟩
    | true =>
      refine .inr ⟨rfl, ?_, State.received_of_fits d.toNat hf⟩
      simpa [hx, State.stores, hf] using hn

theorem execOut_next (h : execOut p1 s = .next t) :
    (∃ a, resolveRead s p1 = .error a ∧ t = s.raise .invalidAddress a) ∨
      (∃ v, resolveRead s p1 = .ok v ∧
        ((s.outAnswer v = .notYet ∧ t = s.sawOutput (some .output)) ∨
          (s.outAnswer v = .fail ∧ t = (s.sawOutput none).raise .portFailure 1) ∨
          (s.outAnswer v = .accepted ∧
            t = ((s.sawOutput none).record (.output v)).advance 2))) := by
  unfold execOut at h
  obtain h | ⟨v, hv, h⟩ := withOperand_next h
  · exact .inl h
  refine .inr ⟨v, hv, ?_⟩
  obtain rfl := Host.Outcome.next.inj h
  cases hx : s.outAnswer v with
  | notYet => exact .inl ⟨rfl, rfl⟩
  | fail => exact .inr (.inl ⟨rfl, rfl⟩)
  | accepted => exact .inr (.inr ⟨rfl, rfl⟩)

/-- IN with a valid destination does what the port's answer says, unless that stores at or beyond
`MEM_CAP` (R102, R35). -/
theorem execIn_of_writable (h : writable s p1 = true)
    (ha : s.allowsWrite (destCell s p1) = true ∨ s.stores s.inAnswer = false) :
    execIn p1 s = .next (s.received (destCell s p1) s.inAnswer) := by
  obtain ⟨d, hd, h0, hc⟩ := destAddress_of_writable h
  rw [← hc] at ha ⊢
  simp only [execIn, withDest, hd, withValidAddress_of_nonneg _ h0]
  refine if_neg ?_
  obtain ha | ha := ha <;> simp [ha]

/-- OUT of a readable operand does what the port's answer says (R105). -/
theorem execOut_of_readable (h : readable s p1 = true) :
    execOut p1 s =
      .next (s.offered (operandValue s p1) (s.outAnswer (operandValue s p1))) := by
  simp only [execOut, withOperand_of_readable _ h]

/-- The end of JT and JF: a fault, a jump when `taken` says so, or the advance. -/
def Jumps (s t : State) (p1 p2 : Param) (taken : Int → Bool) : Prop :=
  (∃ a, t = s.raise .invalidAddress a) ∨
    (∃ o1 o2, resolveRead s p1 = .ok o1 ∧ resolveRead s p2 = .ok o2 ∧
      ((taken o1 = true ∧ 0 ≤ o2 ∧ t = s.jumpTo o2.toNat) ∨
        (taken o1 = false ∧ t = s.advance 3)))

theorem jumps_of {taken : Int → Bool}
    (h : withOperand s p1 (fun o1 => withOperand s p2 fun o2 => branch s (taken o1) o2) = .next t) :
    Jumps s t p1 p2 taken := by
  obtain ⟨a, -, h⟩ | ⟨o1, h1, h⟩ := withOperand_next h
  · exact .inl ⟨a, h⟩
  obtain ⟨a, -, h⟩ | ⟨o2, h2, h⟩ := withOperand_next h
  · exact .inl ⟨a, h⟩
  obtain ⟨-, -, h⟩ | ⟨hb, h0, h⟩ | ⟨hb, h⟩ := branch_next h
  · exact .inl ⟨_, h⟩
  · exact .inr ⟨o1, o2, h1, h2, .inl ⟨hb, h0, h⟩⟩
  · exact .inr ⟨o1, o2, h1, h2, .inr ⟨hb, h⟩⟩

theorem execJt_next (h : execJt p1 p2 s = .next t) : Jumps s t p1 p2 aluNz := jumps_of h

theorem execJf_next (h : execJf p1 p2 s = .next t) : Jumps s t p1 p2 (fun a => !aluNz a) :=
  jumps_of (taken := fun a => !aluNz a) h

theorem execArb_next (h : execArb p1 s = .next t) :
    (∃ a, resolveRead s p1 = .error a ∧ t = s.raise .invalidAddress a) ∨
      (∃ v, resolveRead s p1 = .ok v ∧
        ((s.fits (s.rb + v) = false ∧ t = s.raise .arithmeticOverflow 9) ∨
          (s.fits (s.rb + v) = true ∧ t = (s.setRb (s.rb + v)).advance 2))) := by
  unfold execArb at h
  obtain h | ⟨v, hv, h⟩ := withOperand_next h
  · exact .inl h
  obtain h | ⟨hf, h⟩ := withFit_next h
  · exact .inr ⟨v, hv, .inl h⟩
  · exact .inr ⟨v, hv, .inr ⟨hf, by simpa using h.symm⟩⟩

theorem execHalt_next (h : execHalt s = .next t) : t = s.halt := by
  simpa [execHalt] using h.symm

theorem execUnknown_next {raw : Int} (h : execUnknown raw s = .next t) :
    (s.cfg.unknownPolicy = .skip ∧ t = (s.record (.report s.pc raw)).advance 1) ∨
      (s.cfg.unknownPolicy = .fault ∧ t = s.raise .unknownOpcode raw) := by
  unfold execUnknown at h
  split at h
  · exact .inl ⟨‹_›, by simpa using h.symm⟩
  · exact .inr ⟨‹_›, by simpa using h.symm⟩

theorem execNegative_next {raw : Int} (h : execNegative raw s = .next t) :
    t = s.raise .negativeInstruction raw := by
  simpa [execNegative] using h.symm

/-- A step of a running engine is its cycle. -/
theorem step_running (h : s.status = .running) : step s = cycle s := by simp [step, h]

/-- What a cycle does, by what was fetched. -/
theorem cycle_next (h : cycle s = .next t) :
    (∃ i, s.fetch = .ok i ∧ exec i s = .next t) ∨
      (∃ e, s.fetch = .error e ∧ t = s.raiseDecode e) := by
  unfold cycle at h
  split at h
  · exact .inl ⟨_, ‹_›, h⟩
  · exact .inr ⟨_, ‹_›, by simpa using h.symm⟩

/-- A step that answers next from a running engine is a cycle; from a stopped one it changes
nothing. -/
theorem step_next (h : step s = .next t) :
    (s.status = .running ∧ cycle s = .next t) ∨ (s.status ≠ .running ∧ t = s) := by
  unfold step at h
  split at h
  · exact .inl ⟨‹_›, h⟩
  · exact .inr ⟨by simp [*], by simpa using h.symm⟩
  · exact .inr ⟨by simp [*], by simpa using h.symm⟩

/-! ## Every next state of every instruction -/

/-- All the ways `exec i s` can answer a next state, with what is known in each. -/
inductive Ran (s : State) (i : Instr) : State → Prop
  /-- a fault of the parameters (R62, R142) or a taken jump's target (R113). -/
  | parameterFault (f : FaultCause) (a : Int)
      (hf : (f = .immediateDestination ∧ ∃ p, destParam i = some p ∧ destAddress s p = none) ∨
        f = .invalidAddress)
      (hi : i ≠ .halt) (hc : i.opClass ≠ none) : Ran s i (s.raise f a)
  /-- an overflow of ADD, MUL or ARB (R147). -/
  | overflow (c : OpClass) (v : Int) (hc : i.opClass = some c) (hm : c ∈ [OpClass.add, .mul, .arb])
      (hv : s.fits v = false) : Ran s i (s.raise .arithmeticOverflow (c.code : Int))
  /-- the write of ADD, MUL, LT or EQ. -/
  | stored (p : Param) (c : OpClass) (d v : Int) (hc : i.opClass = some c)
      (hm : c ∈ [OpClass.add, .mul, .lt, .eq]) (hl : i.length = 4) (hp : destParam i = some p)
      (hd : destAddress s p = some d) (h0 : 0 ≤ d) (ha : s.allowsWrite d.toNat = true)
      (hv : s.fits v = true ∨ v = 0 ∨ v = 1) :
      Ran s i ((s.setMem (s.mem.put d.toNat v)).advance 4)
  /-- IN with no answer yet. -/
  | inputHeld (p : Param) (hi : i = .inp p) (hx : s.inAnswer = .notYet) :
      Ran s i (s.sawInput (some .input))
  /-- IN whose port failed. -/
  | inputFailed (p : Param) (hi : i = .inp p) (hx : s.inAnswer = .fail) :
      Ran s i ((s.sawInput none).raise .portFailure 0)
  /-- IN delivered a value out of range. -/
  | inputOverflow (p : Param) (v : Int) (hi : i = .inp p) (hx : s.inAnswer = .value v)
      (hv : s.fits v = false) : Ran s i ((s.sawInput none).raise .arithmeticOverflow 3)
  /-- IN delivered a value. -/
  | inputStored (p : Param) (d v : Int) (hi : i = .inp p) (hx : s.inAnswer = .value v)
      (hd : destAddress s p = some d) (h0 : 0 ≤ d) (ha : s.allowsWrite d.toNat = true)
      (hv : s.fits v = true) :
      Ran s i ((((s.sawInput none).record (.input v)).setMem (s.mem.put d.toNat v)).advance 2)
  /-- OUT with no answer yet. -/
  | outputHeld (p : Param) (v : Int) (hi : i = .out p) (hx : s.outAnswer v = .notYet)
      (hr : resolveRead s p = .ok v) :
      Ran s i (s.sawOutput (some .output))
  /-- OUT whose port failed. -/
  | outputFailed (p : Param) (v : Int) (hi : i = .out p) (hx : s.outAnswer v = .fail)
      (hr : resolveRead s p = .ok v) :
      Ran s i ((s.sawOutput none).raise .portFailure 1)
  /-- OUT accepted. -/
  | outputTaken (p : Param) (v : Int) (hi : i = .out p) (hx : s.outAnswer v = .accepted)
      (hr : resolveRead s p = .ok v) :
      Ran s i (((s.sawOutput none).record (.output v)).advance 2)
  /-- JT or JF taken. -/
  | jumped (q p : Param) (v : Int) (hi : i = .jt q p ∨ i = .jf q p) (hr : resolveRead s p = .ok v)
      (h0 : 0 ≤ v) : Ran s i (s.jumpTo v.toNat)
  /-- JT or JF not taken. -/
  | passed (q p : Param) (hi : i = .jt q p ∨ i = .jf q p) : Ran s i (s.advance 3)
  /-- ARB. -/
  | rebased (p : Param) (v : Int) (hi : i = .arb p) (hr : resolveRead s p = .ok v)
      (hv : s.fits (s.rb + v) = true) : Ran s i ((s.setRb (s.rb + v)).advance 2)
  /-- HALT. -/
  | halted (hi : i = .halt) : Ran s i s.halt
  /-- an unknown cell skipped. -/
  | skipped (raw : Int) (hi : i = .unknown raw) (hp : s.cfg.unknownPolicy = .skip) :
      Ran s i ((s.record (.report s.pc raw)).advance 1)
  /-- an unknown cell under policy FAULT. -/
  | unknownFault (raw : Int) (hi : i = .unknown raw) (hp : s.cfg.unknownPolicy = .fault) :
      Ran s i (s.raise .unknownOpcode raw)
  /-- a negative cell. -/
  | negativeFault (raw : Int) (hi : i = .negative raw) :
      Ran s i (s.raise .negativeInstruction raw)

theorem StoresResult.ran {v : Int → Int → Int} {c : OpClass} {i : Instr}
    (h : StoresResult s t p1 p2 p3 v c) (hi : i ≠ .halt) (hc : i.opClass = some c)
    (ho : c ∈ [OpClass.add, .mul, .arb]) (hm : c ∈ [OpClass.add, .mul, .lt, .eq])
    (hl : i.length = 4) (hp : destParam i = some p3) : Ran s i t := by
  obtain ⟨f, a, hf, rfl⟩ | ⟨o1, o2, d, -, -, hd, h0, ⟨hv, rfl⟩ | ⟨hv, ha, rfl⟩⟩ := h
  · exact .parameterFault f a (hf.imp_left fun hf => ⟨hf.1, p3, hp, hf.2⟩) hi (by simp [hc])
  · exact .overflow c _ hc ho hv
  · exact .stored p3 c d _ hc hm hl hp hd h0 ha (.inl hv)

theorem StoresTruth.ran {v : Int → Int → Int} {c : OpClass} {i : Instr}
    (h : StoresTruth s t p1 p2 p3 v) (hi : i ≠ .halt) (hc : i.opClass = some c)
    (hm : c ∈ [OpClass.add, .mul, .lt, .eq]) (hl : i.length = 4) (hp : destParam i = some p3)
    (hv : ∀ a b, v a b = 0 ∨ v a b = 1) : Ran s i t := by
  obtain ⟨f, a, hf, rfl⟩ | ⟨o1, o2, d, -, -, hd, h0, ha, rfl⟩ := h
  · exact .parameterFault f a (hf.imp_left fun hf => ⟨hf.1, p3, hp, hf.2⟩) hi (by simp [hc])
  · exact .stored p3 c d _ hc hm hl hp hd h0 ha (.inr (hv o1 o2))

theorem truthCell_cases (b : Bool) : truthCell b = 0 ∨ truthCell b = 1 := by cases b <;> decide

theorem Jumps.ran {taken : Int → Bool} {i : Instr} (h : Jumps s t p1 p2 taken)
    (hi : i = .jt p1 p2 ∨ i = .jf p1 p2) : Ran s i t := by
  obtain ⟨a, rfl⟩ | ⟨o1, o2, -, h2, ⟨-, h0, rfl⟩ | ⟨-, rfl⟩⟩ := h
  · refine .parameterFault _ a (.inr rfl) ?_ ?_ <;> obtain rfl | rfl := hi <;> simp [Instr.opClass]
  · exact .jumped p1 p2 o2 hi h2 h0
  · exact .passed p1 p2 hi

/-- What a cycle can do, once for every instruction. -/
theorem exec_ran {i : Instr} (h : exec i s = .next t) : Ran s i t := by
  cases i with
  | add p1 p2 p3 => exact (execAdd_next h).ran (by simp) rfl (by decide) (by decide) rfl rfl
  | mul p1 p2 p3 => exact (execMul_next h).ran (by simp) rfl (by decide) (by decide) rfl rfl
  | lt p1 p2 p3 =>
    exact (execLt_next h).ran (by simp) rfl (by decide) rfl rfl fun _ _ => truthCell_cases _
  | eq p1 p2 p3 =>
    exact (execEq_next h).ran (by simp) rfl (by decide) rfl rfl fun _ _ => truthCell_cases _
  | inp p =>
    obtain ⟨f, a, hf, rfl⟩ | ⟨d, hd, h0, ⟨hx, rfl⟩ | ⟨hx, rfl⟩ | ⟨v, hx, ⟨hv, rfl⟩ | ⟨hv, ha, rfl⟩⟩⟩ :=
      execIn_next h
    · exact .parameterFault f a (hf.imp_left fun hf => ⟨hf.1, p, rfl, hf.2⟩) (by simp)
        (by simp [Instr.opClass])
    · exact .inputHeld p rfl hx
    · exact .inputFailed p rfl hx
    · exact .inputOverflow p v rfl hx hv
    · exact .inputStored p d v rfl hx hd h0 ha hv
  | out p =>
    obtain ⟨a, -, rfl⟩ | ⟨v, hr, ⟨hx, rfl⟩ | ⟨hx, rfl⟩ | ⟨hx, rfl⟩⟩ := execOut_next h
    · exact .parameterFault _ a (.inr rfl) (by simp) (by simp [Instr.opClass])
    · exact .outputHeld p v rfl hx hr
    · exact .outputFailed p v rfl hx hr
    · exact .outputTaken p v rfl hx hr
  | jt p1 p2 => exact (execJt_next h).ran (.inl rfl)
  | jf p1 p2 => exact (execJf_next h).ran (.inr rfl)
  | arb p =>
    obtain ⟨a, -, rfl⟩ | ⟨v, hr, ⟨hv, rfl⟩ | ⟨hv, rfl⟩⟩ := execArb_next h
    · exact .parameterFault _ a (.inr rfl) (by simp) (by simp [Instr.opClass])
    · exact .overflow .arb _ rfl (by decide) hv
    · exact .rebased p v rfl hr hv
  | halt => obtain rfl := execHalt_next h; exact .halted rfl
  | unknown raw =>
    obtain ⟨hp, rfl⟩ | ⟨hp, rfl⟩ := execUnknown_next h
    · exact .skipped raw rfl hp
    · exact .unknownFault raw rfl hp
  | negative raw => obtain rfl := execNegative_next h; exact .negativeFault raw rfl

end Sys2Proof.Machine
end

