-- ==== Sys2Proof/Tests/Slice0.lean ====
section
/-!
SUPPORT. Tests of the model against spec/ (the words and end states of spec/95_test_vectors.md and
of the rules' own examples), and for every obligation with hypotheses a witness that they can be
met, clause by clause, at boundary values.
-/
namespace Sys2Proof.Tests

open Sys2Proof Sys2Proof.Machine

/-! ## Helpers -/

/-- The default machine with a loaded program and ports that answer as given. -/
def withPorts (inp : List InAnswer) (outp : List OutAnswer) (program : List Int) : State :=
  State.loaded .default { queue := inp, rest := .always .notYet }
    { queue := outp, rest := .always .accepted } program

/-- The same with silent ports. -/
def loaded (program : List Int) : State := withPorts [] [] program

/-- A finite build: 64-bit cells, `MEM_CAP` 10, policy FAULT, the length readable. -/
def finite (inp : List InAnswer) (program : List Int) : State :=
  State.loaded
    { cellBits := some 64, memCap := some 10, unknownPolicy := .fault, hostSeesLen := true }
    { queue := inp, rest := .always .fail } { queue := [], rest := .always .fail } program

/-- The answer is a next state that passes the check. -/
def nextIs (r : Result) (check : State → Bool) : Bool :=
  match r with
  | .next t => check t
  | .fault _ => false
  | .refused _ => false

/-- The answer is the fault with this cause and information, with `pc` where it was (R141). -/
def faultsWith (s : State) (c : FaultCause) (info : Int) : Bool :=
  nextIs (step s) fun t =>
    decide (t.status = .faulted ∧ t.cause = c ∧ t.info = info ∧ t.pc = s.pc ∧ t.mem = s.mem)

/-- A position, an immediate and a relative parameter. -/
abbrev pos (v : Int) : Param := ⟨.position, v⟩
abbrev imm (v : Int) : Param := ⟨.immediate, v⟩
abbrev rel (v : Int) : Param := ⟨.relative, v⟩

/-! ## WellFormed: an ill-formed term for each check (R60, R62, R63) -/

theorem test_wf_add_immediate_dest : (Instr.add (imm 1) (imm 2) (imm 3)).wf = false := by decide
theorem test_wf_mul_immediate_dest : (Instr.mul (pos 1) (pos 2) (imm 3)).wf = false := by decide
theorem test_wf_in_immediate_dest : (Instr.inp (imm 3)).wf = false := by decide
theorem test_wf_lt_immediate_dest : (Instr.lt (pos 1) (pos 2) (imm 3)).wf = false := by decide
theorem test_wf_eq_immediate_dest : (Instr.eq (rel 1) (rel 2) (imm 3)).wf = false := by decide
theorem test_wf_unknown_known_class : (Instr.unknown 1099).wf = false := by decide
theorem test_wf_unknown_negative : (Instr.unknown (-1)).wf = false := by decide
theorem test_wf_negative_zero : (Instr.negative 0).wf = false := by decide
theorem test_wf_legal : (Instr.add (imm 1) (rel 2) (rel 3)).wf = true := by decide

/-! ## Decoding: words written out from R51, R56 and 95_test_vectors.md 2.1 -/

/-- `CBA01` with C = 2, B = 1, A = 1. -/
theorem test_decode_add : decode 21101 5 6 3 = .ok (.add (imm 5) (imm 6) (rel 3)) := rfl
/-- `CBA02` with C = 0, B = 1, A = 0. -/
theorem test_decode_mul : decode 1002 4 3 4 = .ok (.mul (pos 4) (imm 3) (pos 4)) := rfl
/-- `A03` with A = 2. -/
theorem test_decode_in : decode 203 2 0 0 = .ok (.inp (rel 2)) := rfl
/-- `A04` with A = 0 and two ignored digits above (R55). -/
theorem test_decode_out : decode 10004 7 0 0 = .ok (.out (pos 7)) := rfl
/-- `BA05` with B = 2, A = 1. -/
theorem test_decode_jt : decode 2105 1 0 0 = .ok (.jt (imm 1) (rel 0)) := rfl
/-- `BA06` with B = 1, A = 0. -/
theorem test_decode_jf : decode 1006 5 9 0 = .ok (.jf (pos 5) (imm 9)) := rfl
/-- `CBA07` with C = 0, B = 0, A = 1. -/
theorem test_decode_lt : decode 107 8 21 20 = .ok (.lt (imm 8) (pos 21) (pos 20)) := rfl
/-- `CBA08` with C = 2, B = 1, A = 0. -/
theorem test_decode_eq : decode 21008 4 (-1) 9 = .ok (.eq (pos 4) (imm (-1)) (rel 9)) := rfl
/-- `A09` with A = 2. -/
theorem test_decode_arb : decode 209 (-7) 0 0 = .ok (.arb (rel (-7))) := rfl
/-- Class 99 with ignored digits above (R55). -/
theorem test_decode_halt : decode 12399 1 2 3 = .ok .halt := rfl
/-- 5000 has class 0 (R52). -/
theorem test_decode_unknown : decode 5000 0 0 0 = .ok (.unknown 5000) := rfl
theorem test_decode_negative : decode (-1101) 0 0 0 = .ok (.negative (-1101)) := rfl
/-- The third mode digit of 90002 is 9. -/
theorem test_decode_bad_mode : decode 90002 0 0 0 = .error (.badMode 90002) := rfl
theorem test_decode_imm_dest : decode 10001 0 0 0 = .error (.immDest 10001) := rfl
/-- `InvalidMode` before `ImmediateDestination` (R151). -/
theorem test_decode_priority : decode 10301 0 0 0 = .error (.badMode 10301) := rfl
theorem test_encode_add : encode (.add (imm 100) (imm (-1)) (pos 4)) = [1101, 100, -1, 4] := by decide
theorem test_table_word : decodeTableWord 16 21107 = some (.lt (imm 0) (imm 0) (rel 0)) := by decide

/-! ## One step of each instruction -/

/-- The example of R90. -/
theorem test_add : nextIs (step (loaded [1, 9, 10, 3, 2, 3, 11, 0, 99, 30, 40, 50]))
    (fun t => decide (t.mem.cell 3 = 70 ∧ t.pc = 4)) = true := by decide
/-- VA7. -/
theorem test_add_negative : nextIs (step (loaded [1101, -5, 5, 5, 99, 7]))
    (fun t => decide (t.mem.cell 5 = 0 ∧ t.mem.len = 6 ∧ t.pc = 4)) = true := by decide
/-- VM7: 2^62 * 2 in the unbounded machine. -/
theorem test_mul_unbounded : nextIs (step (loaded [1102, 4611686018427387904, 2, 5, 99]))
    (fun t => decide (t.mem.cell 5 = 9223372036854775808)) = true := by decide
/-- VM7 with `CELL_BITS = 64`. -/
theorem test_mul_overflow :
    faultsWith (finite [] [1102, 4611686018427387904, 2, 5, 99]) .arithmeticOverflow 2 = true := by decide
/-- The example of R100. -/
theorem test_in : nextIs (step (withPorts [.value 42] [] [3, 0, 4, 0, 99]))
    (fun t => decide (t.mem.cell 0 = 42 ∧ t.pc = 2 ∧ t.events = [.input 42])) = true := by decide
/-- R103: not yet, so nothing of the core moves. -/
theorem test_in_holds : nextIs (step (withPorts [.notYet, .value 42] [] [3, 0, 4, 0, 99]))
    (fun t => decide (t.mem.cell 0 = 3 ∧ t.pc = 0 ∧ t.status = .running ∧ t.events = [] ∧
      t.pending = some .input)) = true := by decide
/-- R101: mode 1 outputs the literal. -/
theorem test_out : nextIs (step (loaded [104, -5, 99]))
    (fun t => decide (t.outputs = [-5] ∧ t.pc = 2)) = true := by decide
/-- R106: `Fail` is `PortFailure(1)`. -/
theorem test_out_fails : faultsWith (withPorts [] [.fail] [104, 1, 99]) .portFailure 1 = true := by decide
/-- The example of R110. -/
theorem test_jt : nextIs (step (loaded [1105, 1, 7])) (fun t => decide (t.pc = 7)) = true := by decide
/-- R112: a jump that is not taken still resolves its target. -/
theorem test_jt_resolves : faultsWith (loaded [105, 0, -1]) .invalidAddress (-1) = true := by decide
/-- The second example of R111: cell 5 holds 2, so the branch is not taken. -/
theorem test_jf : nextIs (step (loaded [1006, 5, 9, 0, 0, 2])) (fun t => decide (t.pc = 3)) = true := by decide
/-- R113: a taken jump to a negative target. -/
theorem test_jf_negative : faultsWith (loaded [1106, 0, -3]) .invalidAddress (-3) = true := by decide
/-- VL4: the signed order. -/
theorem test_lt : nextIs (step (loaded [1107, -1, 0, 5, 99, -1]))
    (fun t => decide (t.mem.cell 5 = 1 ∧ t.pc = 4)) = true := by decide
/-- VL3: strict. -/
theorem test_lt_equal : nextIs (step (loaded [1107, 5, 5, 5, 99, -1]))
    (fun t => decide (t.mem.cell 5 = 0)) = true := by decide
/-- The example of R96. -/
theorem test_eq : nextIs (step (loaded [1108, -1, -1, 5]))
    (fun t => decide (t.mem.cell 5 = 1 ∧ t.pc = 4)) = true := by decide
/-- R143: destination in mode 1. -/
theorem test_eq_immediate_dest : faultsWith (loaded [11108, 1, 1, 5]) .immediateDestination 11108 = true := by decide
/-- The example of R115. -/
theorem test_arb : nextIs (step (loaded [109, 7])) (fun t => decide (t.rb = 7 ∧ t.pc = 2)) = true := by decide
/-- R175: ARB in relative mode reads with the old `rb`. -/
theorem test_arb_relative : nextIs (step { loaded [209, 1, 0, 40] with rb := 2 })
    (fun t => decide (t.rb = 42)) = true := by decide
/-- R116: `pc` stays at the HALT cell. -/
theorem test_halt : nextIs (step { loaded [1101, 100, -1, 4, 99] with pc := 4 })
    (fun t => decide (t.status = .halted ∧ t.pc = 4)) = true := by decide
/-- S7. -/
theorem test_unknown : nextIs (step (loaded [5000]))
    (fun t => decide (t.pc = 1 ∧ t.reports = [(0, 5000)] ∧ t.status = .running)) = true := by decide
/-- S7 under the policy FAULT. -/
theorem test_unknown_fault : faultsWith (finite [] [5000]) .unknownOpcode 5000 = true := by decide
/-- R145. -/
theorem test_negative : faultsWith (loaded [-99]) .negativeInstruction (-99) = true := by decide
/-- R147: `Reset` refuses a program cell out of range; 2^63 is the first one. -/
theorem test_reset_refuses : hostReset [9223372036854775808] (finite [] []) =
    .refused .programOutOfRange := rfl
/-- R35: a write at `MEM_CAP` is refused. -/
theorem test_mem_cap : step (finite [] [1101, 1, 2, 10, 99]) = .refused (.memCapExceeded 10) := rfl
/-- The word `withFetchWord` places at reset is the one the next step runs: `ADD #0, #0, [0]` writes
0 over its own opcode cell. -/
theorem test_fetch_word : nextIs (step (State.reset.withFetchWord 16 1101))
    (fun t => decide (t.mem.cell 0 = 0 ∧ t.pc = 4)) = true := by decide

/-! ## Witnesses -/

theorem witness_ResetLoadsProgram :
    ((loaded []).fitsProgram [1, 0, 99] = true ∧
      ∀ cap, (loaded []).cfg.memCap = some cap → [1, 0, 99].length ≤ cap) ∧
    ((finite [] []).fitsProgram [1, 2, 3, 4, 5, 6, 7, 8, 9, 9223372036854775807] = true ∧
      ∀ cap, (finite [] []).cfg.memCap = some cap →
        [1, 2, 3, 4, 5, 6, 7, 8, 9, 9223372036854775807].length ≤ cap) := by
  refine ⟨⟨by decide, fun cap h => nomatch h⟩, by decide, fun cap h => ?_⟩
  obtain rfl : 10 = cap := Option.some.inj h
  decide

theorem witness_SkipsZerosForEver : State.reset.status = .running ∧
    State.reset.cfg.unknownPolicy = .skip ∧ ∀ a, State.reset.pc ≤ a → State.reset.mem.cell a = 0 :=
  ⟨rfl, rfl, fun _ _ => rfl⟩

theorem witness_HostReadsAfterTheEnd : State.reset.status = .running ∧
    (loaded [99]).halt.status ≠ .running ∧ (finite [] [99]).halt.cfg.hostSeesLen = true ∧
    (loaded [99]).halt.cfg.hostSeesLen = false := by decide

theorem witness_MemReadRule :
    (-1 : Int) < 0 ∧ ((0 : Int) ≤ 2 ∧ (2 : Int).toNat < (Memory.ofProgram [5, 6, 7]).len) ∧
    ((Memory.ofProgram [5, 6, 7]).wf = true ∧ (0 : Int) ≤ 3 ∧
      (Memory.ofProgram [5, 6, 7]).len ≤ (3 : Int).toNat) := by decide

theorem witness_MemWriteRule :
    (-1 : Int) < 0 ∧ ((Memory.ofProgram [5, 6]).wf = true ∧ (0 : Int) ≤ 0) := by decide

theorem witness_StoreOnlyGrows : (∃ t, step State.reset = .next t) ∧
    ((Memory.ofProgram [5, 6]).wf = true ∧ (Memory.ofProgram [5, 6]).len ≤ 2) :=
  ⟨⟨_, rfl⟩, by decide⟩

theorem witness_EqualStoresAreEqualData :
    (Memory.ofProgram [5, 0]).wf = true ∧ (Memory.empty.place 0 [5, 0]).wf = true ∧
    (Memory.ofProgram [5, 0]).len = (Memory.empty.place 0 [5, 0]).len ∧
    ∀ a, (Memory.ofProgram [5, 0]).cell a = (Memory.empty.place 0 [5, 0]).cell a :=
  ⟨rfl, rfl, rfl, fun _ => rfl⟩

theorem witness_CycleReadsOnlyItsCells :
    (loaded [1, 9, 10, 3]).mem.wf = true ∧ ((loaded [1, 9, 10, 3]).mem.put 11 8).wf = true ∧
    ∀ a, a ∈ cycleReads (loaded [1, 9, 10, 3]) →
      ((loaded [1, 9, 10, 3]).mem.put 11 8).cell a = (loaded [1, 9, 10, 3]).mem.cell a := by decide

theorem witness_CycleWritesOnlyItsCell : (∃ t, step (loaded [1101, 1, 2, 5, 99]) = .next t) ∧
    cycleWrite (loaded [1101, 1, 2, 5, 99]) = some 5 ∧
    cycleWrite (loaded [1101, 1, 2, 5, 99]) ≠ some 4 := ⟨⟨_, rfl⟩, by decide⟩

theorem witness_DecodeOfEncode : (Instr.add (imm 5) (rel (-6)) (rel 3)).wf = true ∧
    (Instr.unknown 0).wf = true ∧ (Instr.negative (-1)).wf = true ∧ Instr.halt.wf = true := by decide

theorem witness_EncodeOfDecodeIsCanonical : (0 : Int) ≤ 10304204 ∧
    OpClass.ofCode ((10304204 : Int).toNat % 100) = some .out ∧
    decode 10304204 7 0 0 = .ok (.out (rel 7)) := ⟨by decide, rfl, rfl⟩

theorem witness_DecoderFunction : ((-1 : Int) < 0) ∧
    ((0 : Int) ≤ 10 ∧ (10 : Int).toNat % 100 ∉ knownClasses) ∧
    ((0 : Int) ≤ 30002 ∧ (30002 : Int).toNat % 100 = OpClass.mul.code ∧
      ∃ j, 1 ≤ j ∧ j ≤ OpClass.mul.arity ∧ 2 < digit (30002 : Int).toNat (j + 1)) ∧
    ((22201 : Int).toNat % 100 = OpClass.add.code ∧
      (∀ j, 1 ≤ j → j ≤ OpClass.add.arity → digit (22201 : Int).toNat (j + 1) ≤ 2) ∧
      digit (22201 : Int).toNat (OpClass.add.arity + 1) ≠ 1) ∧
    ((103 : Int).toNat % 100 = OpClass.inp.code ∧
      (∀ j, 1 ≤ j → j ≤ OpClass.inp.arity → digit (103 : Int).toNat (j + 1) ≤ 2) ∧
      OpClass.inp.writes = true ∧ digit (103 : Int).toNat (OpClass.inp.arity + 1) = 1) := by
  refine ⟨by decide, by decide, ⟨by decide, rfl, 3, by decide⟩, ⟨rfl, fun j h1 h2 => ?_, by decide⟩,
    rfl, fun j h1 h2 => ?_, rfl, rfl⟩
  · have h2 : j ≤ 3 := h2
    obtain rfl | rfl | rfl : j = 1 ∨ j = 2 ∨ j = 3 := by omega
    all_goals decide
  · have h2 : j ≤ 1 := h2
    obtain rfl : j = 1 := by omega
    decide

theorem witness_HighDigitsIgnored : (0 : Int) ≤ 100001 ∧
    OpClass.ofCode ((100001 : Int).toNat % 100) = some .add := by decide

theorem witness_DecodedIsWellFormed : decode 203 (-1) 0 0 = .ok (.inp (rel (-1))) := rfl

theorem witness_StepRunsDecoded : (loaded [104, 7]).status = .running ∧
    decode ((loaded [104, 7]).mem.cell 0) ((loaded [104, 7]).mem.cell 1)
      ((loaded [104, 7]).mem.cell 2) ((loaded [104, 7]).mem.cell 3) = .ok (.out (imm 7)) := ⟨rfl, rfl⟩

theorem witness_StoppedEngineStays : (loaded [99]).halt.status ≠ .running ∧
    ((loaded [-1]).raise .negativeInstruction (-1)).status ≠ .running := by decide

theorem witness_StepIsDigitCycle : (loaded [21101, 5, 6, 3]).status = .running := rfl

/-- The largest 64-bit sum, at the last cell below `MEM_CAP`. -/
theorem witness_AddStoresSum : (finite [] [1, 2]).mem.wf = true ∧
    readable (finite [] [1, 2]) (imm 9223372036854775806) = true ∧
    readable (finite [] [1, 2]) (pos 0) = true ∧ writable (finite [] [1, 2]) (rel 9) = true ∧
    (finite [] [1, 2]).fits (operandValue (finite [] [1, 2]) (imm 9223372036854775806) +
      operandValue (finite [] [1, 2]) (pos 0)) = true ∧
    (finite [] [1, 2]).allowsWrite (destCell (finite [] [1, 2]) (rel 9)) = true := by decide

/-- The smallest 64-bit product. -/
theorem witness_MulStoresProduct : (finite [] [1, 2]).mem.wf = true ∧
    readable (finite [] [1, 2]) (imm (-4611686018427387904)) = true ∧
    readable (finite [] [1, 2]) (rel 1) = true ∧ writable (finite [] [1, 2]) (pos 0) = true ∧
    (finite [] [1, 2]).fits (operandValue (finite [] [1, 2]) (imm (-4611686018427387904)) *
      operandValue (finite [] [1, 2]) (rel 1)) = true ∧
    (finite [] [1, 2]).allowsWrite (destCell (finite [] [1, 2]) (pos 0)) = true := by decide

/-- Operands in order, equal, and out of order. -/
theorem witness_LtStoresTruth : (loaded [3, 4]).mem.wf = true ∧
    readable (loaded [3, 4]) (pos 0) = true ∧ readable (loaded [3, 4]) (rel 1) = true ∧
    writable (loaded [3, 4]) (pos 0) = true ∧
    (loaded [3, 4]).allowsWrite (destCell (loaded [3, 4]) (pos 0)) = true ∧
    operandValue (loaded [3, 4]) (pos 0) < operandValue (loaded [3, 4]) (rel 1) ∧
    ¬operandValue (loaded [3, 4]) (pos 0) < operandValue (loaded [3, 4]) (pos 0) := by decide

theorem witness_EqStoresTruth : (loaded [3, 3]).mem.wf = true ∧
    readable (loaded [3, 3]) (pos 0) = true ∧ readable (loaded [3, 3]) (rel 1) = true ∧
    writable (loaded [3, 3]) (pos 100) = true ∧
    (loaded [3, 3]).allowsWrite (destCell (loaded [3, 3]) (pos 100)) = true ∧
    operandValue (loaded [3, 3]) (pos 0) = operandValue (loaded [3, 3]) (rel 1) ∧
    operandValue (loaded [3, 3]) (pos 0) ≠ operandValue (loaded [3, 3]) (imm 4) := by decide

theorem witness_InStoresDelivered :
    (finite [.value (-9223372036854775808)] [3, 9]).mem.wf = true ∧
    writable (finite [.value (-9223372036854775808)] [3, 9]) (pos 9) = true ∧
    (finite [.value (-9223372036854775808)] [3, 9]).inAnswer = .value (-9223372036854775808) ∧
    (finite [.value (-9223372036854775808)] [3, 9]).fits (-9223372036854775808) = true ∧
    (finite [.value (-9223372036854775808)] [3, 9]).allowsWrite
      (destCell (finite [.value (-9223372036854775808)] [3, 9]) (pos 9)) = true := by decide

theorem witness_OutHandsOver : readable (loaded [4, 0]) (pos 0) = true ∧
    (loaded [4, 0]).outAnswer (operandValue (loaded [4, 0]) (pos 0)) = .accepted := by decide

theorem witness_PortsHold :
    (writable (loaded [3, 0]) (pos 0) = true ∧ (loaded [3, 0]).inAnswer = .notYet) ∧
    (readable (withPorts [] [.notYet] [4, 0]) (pos 0) = true ∧
      (withPorts [] [.notYet] [4, 0]).outAnswer (operandValue (withPorts [] [.notYet] [4, 0]) (pos 0)) =
        .notYet) := by decide

theorem witness_PortFailuresFault :
    (writable (finite [] [3, 0]) (pos 0) = true ∧ (finite [] [3, 0]).inAnswer = .fail) ∧
    (readable (finite [] [4, 0]) (pos 0) = true ∧ (finite [] [4, 0]).outAnswer (operandValue (finite [] [4, 0]) (pos 0)) = .fail) := by decide

/-- Free ports, with the destination at the last cell below a `MEM_CAP`. -/
theorem witness_FreePortsAskEnvironment :
    ∃ s : State, s.mem.wf = true ∧ writable s (pos 9) = true ∧
      s.allowsWrite (destCell s (pos 9)) = true ∧
      s.input = { queue := [], rest := .environment 2 5 } ∧ readable s (rel 0) = true ∧
      s.output = { queue := [], rest := .environment 0 0 } :=
  ⟨{ finite [] [3, 9] with
      input := { queue := [], rest := .environment 2 5 }
      output := { queue := [], rest := .environment 0 0 } }, rfl, by decide, by decide, rfl,
    by decide, rfl⟩

/-- At reset a port is free: IN runs whatever the environment answers (R5, R102, R130). -/
theorem test_reset_port_is_free : nextIs (step (State.reset.withFetchWord 16 3))
    (fun t => decide (t.input = { queue := [], rest := .environment 0 1 })) = true := by
  unfold State.reset
  show nextIs (.next (State.received _ _ _)) _ = true
  cases h : State.inAnswer _ <;> rfl

/-- JT taken on a negative operand, to 0; not taken, with a negative target unused. -/
theorem witness_JtBranches : readable (loaded []) (imm (-1)) = true ∧
    readable (loaded []) (imm 0) = true ∧ operandValue (loaded []) (imm (-1)) ≠ 0 ∧
    0 ≤ operandValue (loaded []) (imm 0) ∧ operandValue (loaded []) (pos 5) = 0 ∧
    readable (loaded []) (pos 5) = true := by decide

theorem witness_JfBranches : readable (loaded []) (pos 5) = true ∧
    readable (loaded []) (imm 0) = true ∧ operandValue (loaded []) (pos 5) = 0 ∧
    0 ≤ operandValue (loaded []) (imm 0) ∧ readable (loaded []) (imm 1) = true ∧
    operandValue (loaded []) (imm 1) ≠ 0 := by decide

theorem witness_ArbAddsToBase : readable (finite [] []) (imm (-9223372036854775808)) = true ∧
    (finite [] []).fits ((finite [] []).rb +
      operandValue (finite [] []) (imm (-9223372036854775808))) = true := by decide

theorem witness_HaltStops : (loaded [1099]).status = .running ∧
    0 ≤ (loaded [1099]).mem.cell (loaded [1099]).pc ∧
    ((loaded [1099]).mem.cell (loaded [1099]).pc).toNat % 100 = 99 := by decide

theorem witness_UnknownIsSkipped : (loaded [98]).status = .running ∧
    (loaded [98]).cfg.unknownPolicy = .skip ∧ 0 ≤ (loaded [98]).mem.cell (loaded [98]).pc ∧
    ((loaded [98]).mem.cell (loaded [98]).pc).toNat % 100 ∉ knownClasses := by decide

theorem witness_UnknownFaultPolicy :
    ((finite [] [10]).status = .running ∧ (finite [] [10]).cfg.unknownPolicy = .fault ∧
      0 ≤ (finite [] [10]).mem.cell 0 ∧ ((finite [] [10]).mem.cell 0).toNat % 100 ∉ knownClasses) ∧
    (loaded [-1]).mem.cell 0 < 0 ∧ ((loaded [99]).mem.cell 0).toNat % 100 ∈ knownClasses := by decide

theorem witness_NegativeCellFaults :
    ((loaded [-1]).status = .running ∧ (loaded [-1]).mem.cell (loaded [-1]).pc < 0) ∧
    (0 ≤ (loaded [4, -1]).mem.cell 0 ∧
      ∃ t, step (loaded [4, -1]) = .next t ∧ t.status = .faulted) := ⟨by decide, by decide, _, rfl, rfl⟩

theorem witness_InvalidModeFaults :
    ((loaded [304]).status = .running ∧ 0 ≤ (loaded [304]).mem.cell (loaded [304]).pc ∧
      ((loaded [304]).mem.cell (loaded [304]).pc).toNat % 100 = OpClass.out.code ∧
      1 ≤ OpClass.out.arity ∧ 2 < digit ((loaded [304]).mem.cell (loaded [304]).pc).toNat 2) ∧
    ∃ t, step (loaded [304]) = .next t ∧ t.status = .faulted ∧ t.cause = .invalidMode :=
  ⟨by decide, _, rfl, rfl, rfl⟩

theorem witness_ImmediateDestinationFaults :
    ((loaded [103]).status = .running ∧ 0 ≤ (loaded [103]).mem.cell (loaded [103]).pc ∧
      ((loaded [103]).mem.cell (loaded [103]).pc).toNat % 100 = OpClass.inp.code ∧
      OpClass.inp.writes = true ∧
      (∀ j, 1 ≤ j → j ≤ 1 → digit ((loaded [103]).mem.cell (loaded [103]).pc).toNat (j + 1) ≤ 2) ∧
      digit ((loaded [103]).mem.cell (loaded [103]).pc).toNat (OpClass.inp.arity + 1) = 1) ∧
    ∃ t, step (loaded [103]) = .next t ∧ t.status = .faulted ∧ t.cause = .immediateDestination := by
  refine ⟨⟨rfl, by decide, rfl, rfl, fun j h1 h2 => ?_, rfl⟩, _, rfl, rfl, rfl⟩
  obtain rfl : j = 1 := by omega
  decide

theorem witness_AddressFaultOrder : destAddress (loaded [5]) (pos (-3)) = some (-3) ∧
    resolveRead (loaded [5]) (rel (-1)) = .error (-1) ∧ readable (loaded [5]) (imm 4) = true ∧
    readable (loaded [5]) (pos 0) = true ∧ (-3 : Int) < 0 := ⟨rfl, rfl, rfl, rfl, by decide⟩

theorem witness_OneParameterAddressFaults : resolveRead (loaded []) (pos (-1)) = .error (-1) ∧
    destAddress (loaded []) (rel (-1)) = some (-1) ∧ (-1 : Int) < 0 := ⟨rfl, rfl, by decide⟩

theorem witness_JumpResolvesBothOperands : resolveRead (loaded []) (pos (-1)) = .error (-1) ∧
    readable (loaded []) (imm 0) = true := ⟨rfl, rfl⟩

theorem witness_NegativeTargetFaults : readable (loaded []) (imm 1) = true ∧
    readable (loaded []) (imm (-1)) = true ∧ operandValue (loaded []) (imm (-1)) < 0 ∧
    operandValue (loaded []) (imm 1) ≠ 0 ∧ readable (loaded []) (pos 0) = true ∧
    operandValue (loaded []) (pos 0) = 0 := by decide

/-- The first sum, product, base and delivered value out of 64 bits. -/
theorem witness_OverflowFaults :
    (readable (finite [] []) (imm 9223372036854775807) = true ∧ readable (finite [] []) (imm 1) = true ∧
      writable (finite [] []) (pos 0) = true ∧
      (finite [] []).fits (9223372036854775807 + 1) = false) ∧
    (readable (finite [] []) (imm 4611686018427387904) = true ∧
      (finite [] []).fits (4611686018427387904 * 2) = false) ∧
    (readable (finite [] []) (imm (-9223372036854775809)) = true ∧
      (finite [] []).fits ((finite [] []).rb + -9223372036854775809) = false) ∧
    (writable (finite [.value 9223372036854775808] []) (pos 0) = true ∧
      (finite [.value 9223372036854775808] []).inAnswer = .value 9223372036854775808 ∧
      (finite [.value 9223372036854775808] []).fits 9223372036854775808 = false) ∧
    ((9223372036854775808 : Int) ∈ [1, 9223372036854775808]) := by decide

theorem witness_FaultLeavesState : (loaded [4, -1]).status = .running ∧
    ∃ t, step (loaded [4, -1]) = .next t ∧ t.status = .faulted ∧ t.cause ≠ .portFailure ∧
      ¬(t.cause = .arithmeticOverflow ∧ t.info = 3) := ⟨rfl, _, rfl, rfl, by decide, by decide⟩

theorem witness_FaultsByClass :
    (∃ t, step (finite [] [10]) = .next t ∧ t.status = .faulted ∧ t.cause = .unknownOpcode) ∧
    (∃ t, step (finite [] [1102, 4611686018427387904, 2, 5]) = .next t ∧ t.status = .faulted ∧
      t.cause = .arithmeticOverflow) := ⟨⟨_, rfl, rfl, rfl⟩, _, rfl, rfl, rfl⟩

theorem witness_RefusesOnlyBeyondCap : (∃ t, step (finite [] [1101, 1, 2, 9]) = .next t) ∧
    step (finite [] [1101, 1, 2, 10]) = .refused (.memCapExceeded 10) := ⟨⟨_, rfl⟩, rfl⟩

theorem witness_OnlyArbChangesBase : ∃ t, step (loaded [109, 7]) = .next t ∧ t.rb ≠ (loaded [109, 7]).rb :=
  ⟨_, rfl, by decide⟩

theorem witness_StatusTransitions :
    (∃ t, step (loaded [99]) = .next t ∧ t.status = .halted) ∧
    (∃ t, step (loaded [-1]) = .next t ∧ t.status = .faulted) ∧
    (loaded [99]).status = .running ∧ (loaded [99]).cause = .none := ⟨⟨_, rfl, rfl⟩, ⟨_, rfl, rfl⟩, rfl, rfl⟩

theorem witness_AtMostOneEvent : ∃ t, step (withPorts [.value 8] [] [3, 5]) = .next t ∧
    t.events = [.input 8] := ⟨_, rfl, rfl⟩

/-- A freshly loaded state meets the invariant. -/
theorem consistent_loaded (program : List Int) : Consistent (loaded program) := by
  refine ⟨Memory.wf_ofProgram program, ?_, ?_, ?_, ?_, ?_⟩ <;>
    simp [loaded, withPorts, State.loaded]

theorem witness_PcAfterStep : Consistent (loaded [1105, 1, 7]) ∧
    (loaded [1105, 1, 7]).status = .running ∧
    (loaded [1105, 1, 7]).fetch = .ok (.jt (imm 1) (imm 7)) ∧
    (∃ t, step (loaded [1105, 1, 7]) = .next t ∧ t.status = .running ∧ t.pending = none) ∧
    (∃ t, step (loaded [3, 7]) = .next t ∧ t.pending ≠ none) ∧
    (∃ t, step (loaded [99]) = .next t ∧ t.status ≠ .running) :=
  ⟨consistent_loaded _, rfl, rfl, ⟨_, rfl, rfl, rfl⟩, ⟨_, rfl, by decide⟩, _, rfl, by decide⟩

theorem witness_StepKeepsConsistent : Consistent (loaded [3, 7]) ∧
    ∃ t, step (loaded [3, 7]) = .next t ∧ t.pending = some .input :=
  ⟨consistent_loaded _, _, rfl, rfl⟩

theorem witness_StepKeepsInRange : InRange (finite [] []) ∧ (finite [] []).mem.wf = true ∧
    ∃ t, step (finite [] []) = .next t := ⟨⟨rfl, by decide, fun _ => rfl⟩, rfl, _, rfl⟩

theorem witness_StepKeepsWithinCap : (∃ t, step (finite [] [1101, 1, 2, 9]) = .next t ∧ t.mem.len = 10) ∧
    WithinCap (finite [] [1101, 1, 2, 9]) := by
  refine ⟨⟨_, rfl, rfl⟩, fun cap h => ?_⟩
  obtain rfl : 10 = cap := Option.some.inj h
  decide

theorem witness_LoadedMeetsInvariants : (finite [] []).cfg.wf = true ∧
    ∃ t, hostReset [1, 2, 3, 4, 5, 6, 7, 8, 9, 9223372036854775807] (finite [] []) = .next t :=
  ⟨rfl, _, rfl⟩

theorem witness_FrameThreeParameter :
    Instr.lt (imm 1) (imm 2) (pos 5) ∈ [Instr.add (imm 1) (imm 2) (pos 5), .mul (imm 1) (imm 2) (pos 5),
      .lt (imm 1) (imm 2) (pos 5), .eq (imm 1) (imm 2) (pos 5)] ∧
    (∃ t, exec (.lt (imm 1) (imm 2) (pos 5)) (loaded [7]) = .next t ∧ t.mem.cell 5 = 1) ∧
    destAddress (loaded [7]) (pos 5) = some 5 ∧ ((6 : Nat) : Int) ≠ 5 := ⟨by decide, ⟨_, rfl, rfl⟩, rfl, by decide⟩

theorem witness_FrameIn : (∃ t, exec (.inp (pos 5)) (withPorts [.value 8] [] [7]) = .next t ∧
    t.mem.cell 5 = 8) ∧ destAddress (withPorts [.value 8] [] [7]) (pos 5) = some 5 ∧
    ((4 : Nat) : Int) ≠ 5 := ⟨⟨_, rfl, rfl⟩, rfl, by decide⟩

theorem witness_FrameOut : ∃ t, exec (.out (imm 5)) (loaded [7]) = .next t ∧ t.pc = 2 := ⟨_, rfl, rfl⟩

theorem witness_FrameJumps :
    Instr.jf (imm 0) (imm 9) ∈ [Instr.jt (imm 0) (imm 9), .jf (imm 0) (imm 9)] ∧
    ∃ t, exec (.jf (imm 0) (imm 9)) (loaded [7]) = .next t ∧ t.pc = 9 := ⟨by decide, _, rfl, rfl⟩

theorem witness_FrameSystem : (∃ t, exec (.arb (imm 5)) (loaded []) = .next t ∧ t.rb = 5) ∧
    (∃ t, exec .halt (loaded []) = .next t) ∧ (∃ t, exec (.unknown 0) (loaded []) = .next t ∧ t.pc = 1) ∧
    (∃ t, exec (.negative (-1)) (loaded []) = .next t) :=
  ⟨⟨_, rfl, rfl⟩, ⟨_, rfl⟩, ⟨_, rfl, rfl⟩, _, rfl⟩

end Sys2Proof.Tests
end

section
/-!
SUPPORT. What a look at a port does for every answer (spec/43_io.md R102 to R106), and the
statement about ports that nothing scripts (spec/00_scope.md R5).
-/
namespace Sys2Proof.Machine

open Sys2Proof

variable {s : State} {env look : Nat}

/-! ## The answer of an unscripted port -/

/-- An unscripted input port answers freely (R102, R130). -/
theorem State.inAnswer_environment (h : s.input = { queue := [], rest := .environment env look }) :
    s.inAnswer = Config.inputAnswer env look s.events := by
  simp only [State.inAnswer, h, PortScript.answer_environment]

/-- An unscripted output port answers freely, whatever it is offered (R105, R130). -/
theorem State.outAnswer_environment (v : Int)
    (h : s.output = { queue := [], rest := .environment env look }) :
    s.outAnswer v = Config.outputAnswer env look s.events v := by
  simp only [State.outAnswer, h, PortScript.answer_environment]

/-! ## The effect of each answer -/

@[simp] theorem State.received_notYet (s : State) (d : Nat) :
    s.received d .notYet = s.sawInput (some .input) := rfl
@[simp] theorem State.received_fail (s : State) (d : Nat) :
    s.received d .fail = (s.sawInput none).raise .portFailure 0 := rfl
@[simp] theorem State.offered_accepted (s : State) (v : Int) :
    s.offered v .accepted = ((s.sawOutput none).record (.output v)).advance 2 := rfl
@[simp] theorem State.offered_notYet (s : State) (v : Int) :
    s.offered v .notYet = s.sawOutput (some .output) := rfl
@[simp] theorem State.offered_fail (s : State) (v : Int) :
    s.offered v .fail = (s.sawOutput none).raise .portFailure 1 := rfl

/-- Every answer to `In()`, an overflowing value included, is one look at the port. -/
@[simp] theorem State.received_input (s : State) (d : Nat) (a : InAnswer) :
    (s.received d a).input = s.input.next := by
  cases a with
  | value v =>
    cases hf : s.fits v with
    | true => simp [State.received_of_fits d hf]
    | false => simp [State.received_of_unfit d hf]
  | notYet => simp
  | fail => simp

/-- Every answer to `Out(v)` is one look at the port. -/
@[simp] theorem State.offered_output (s : State) (v : Int) (a : OutAnswer) :
    (s.offered v a).output = s.output.next := by
  cases a <;> simp

/-- No answer to `Out(v)` changes the store. -/
@[simp] theorem State.offered_mem (s : State) (v : Int) (a : OutAnswer) :
    (s.offered v a).mem = s.mem := by
  cases a <;> simp

end Sys2Proof.Machine
end

section

open Sys2Proof Sys2Proof.Machine

/-- Settles O29, by cases over the environment's free answer: IN and OUT are what `received` and
`offered` make of it. -/
theorem freePortsAskEnvironment : Obligations.FreePortsAskEnvironment := by
  intro p1 s env look
  refine ⟨fun hwf hw ha hin => ⟨_, execIn_of_writable hw (.inl ha), by simp [hin], ?_⟩,
    fun hr hout => ⟨_, execOut_of_readable hr, by simp, by simp [hout], ?_⟩⟩
  · rw [State.inAnswer_environment hin]
    cases Config.inputAnswer env look s.events with
    | value v =>
      cases hf : s.fits v with
      | true => simp [hf, State.received_of_fits _ hf, Memory.cell_put_same hwf]
      | false => simp [hf, State.received_of_unfit _ hf]
    | notYet => simp
    | fail => simp
  · rw [State.outAnswer_environment _ hout]
    cases Config.outputAnswer env look s.events (operandValue s p1) with
    | accepted => simp
    | notYet => simp
    | fail => simp

end

section
/-!
SUPPORT. How a cycle ends, said once over every instruction: in a fault, a hold, a halt or
completed (spec/10_state.md R12, R15, R16; spec/43_io.md R103; spec/60_exceptions.md R141), and
what the fetched cell says about the instruction (spec/30_encoding.md R52, R55).
-/
namespace Sys2Proof.Machine

open Sys2Proof

variable {s t : State} {i : Instr}

/-! ## The class of the fetched cell -/

theorem ofCode_eq_some_iff {n : Nat} {c : OpClass} : OpClass.ofCode n = some c ↔ n = c.code :=
  ⟨OpClass.code_of_ofCode, fun h => h ▸ OpClass.ofCode_code c⟩

/-- The fetched instruction is of class `c` exactly when the cell at `pc` is (R52, R55). -/
theorem fetch_opClass_iff (h : s.fetch = .ok i) (c : OpClass) :
    i.opClass = some c ↔ 0 ≤ s.mem.cell s.pc ∧ (s.mem.cell s.pc).toNat % 100 = c.code := by
  rw [← ofCode_eq_some_iff]
  obtain ⟨hneg, rfl⟩ | ⟨-, hnone, rfl⟩ | ⟨c', h0, hsome, hi⟩ := decode_ok h
  · simp only [Instr.opClass, reduceCtorEq, false_iff, not_and]
    exact fun h0 => absurd hneg (Int.not_lt.2 h0)
  · simp only [Instr.opClass, hnone, reduceCtorEq, and_false]
  · simp only [hi, hsome, h0, true_and]

/-- A cell the decoder refuses is no HALT: HALT has no mode digits (R55). -/
theorem fetch_error_not_halt {e : DecodeError} (h : s.fetch = .error e) :
    ¬ (0 ≤ s.mem.cell s.pc ∧ (s.mem.cell s.pc).toNat % 100 = 99) := by
  rintro ⟨-, h99⟩
  obtain ⟨c, -, hc, harity, -⟩ := decode_error h
  obtain rfl : c = .halt := by simpa [h99, OpClass.ofCode] using hc.symm
  exact absurd harity (by decide)

theorem opClass_eq_halt_iff : i.opClass = some .halt ↔ i = .halt := by
  cases i <;> simp [Instr.opClass]

/-! ## The port of an instruction -/

/-- The port whose transaction an instruction of the class begins (R100, R101). -/
def classPort : OpClass → Option Port
  | .inp => some .input
  | .out => some .output
  | _ => none

/-- The port whose transaction the instruction begins; only IN and OUT have one. -/
def portOf (i : Instr) : Option Port := i.opClass.bind classPort

@[simp] theorem portOf_eq_input_iff : portOf i = some .input ↔ ∃ p, i = .inp p := by
  cases i <;> simp [portOf, Instr.opClass, classPort]

@[simp] theorem portOf_eq_output_iff : portOf i = some .output ↔ ∃ p, i = .out p := by
  cases i <;> simp [portOf, Instr.opClass, classPort]

/-! ## The ends of a cycle -/

/-- A parameter that resolves gives its operand value (R78). -/
theorem operandValue_of_resolveRead {p : Param} {v : Int} (h : resolveRead s p = .ok v) :
    operandValue s p = v := by
  obtain ⟨m, w⟩ := p
  cases m <;> simp only [resolveRead, memRead] at h
  case immediate => exact Except.ok.inj h
  all_goals
    split at h
    · cases h
    · exact Except.ok.inj h

/-- The run state and the fault registers of `t` are those of `s` (R15, R16). -/
structure SameRun (s t : State) : Prop where
  status : t.status = s.status
  cause : t.cause = s.cause
  info : t.info = s.info

/-- The four ends of a cycle of `i` begun in `s`. -/
inductive Ended (s : State) (i : Instr) : State → Prop
  /-- a fault, taken in a state `u` whose store and `pc` are those of `s`. -/
  | faulted (u : State) (c : FaultCause) (a : Int) (hi : i ≠ .halt) (hmem : u.mem = s.mem)
      (hpc : u.pc = s.pc) (hc : c ≠ .none) : Ended s i (u.raise c a)
  /-- a hold on the instruction's port. -/
  | held (t : State) (q : Port) (hi : portOf i = some q) (hq : t.pending = some q)
      (hmem : t.mem = s.mem) (hpc : t.pc = s.pc) (hrun : SameRun s t) : Ended s i t
  /-- a halt. -/
  | halted (hi : i = .halt) : Ended s i s.halt
  /-- the instruction completed: past its cells, or at the target of a jump. -/
  | completed (t : State) (hi : i ≠ .halt) (hwf : s.mem.wf = true → t.mem.wf = true)
      (hq : t.pending = none ∨ (t.pending = s.pending ∧ portOf i = none)) (hrun : SameRun s t)
      (hpc : t.pc = s.pc + i.length ∨
        ∃ q p, (i = .jt q p ∨ i = .jf q p) ∧ (t.pc : Int) = operandValue s p) : Ended s i t

/-- No writing instruction halts or uses a port. -/
theorem not_halt_and_portless_of_stores {c : OpClass} (hc : i.opClass = some c)
    (hm : c ∈ [OpClass.add, .mul, .lt, .eq]) : i ≠ .halt ∧ portOf i = none := by
  rw [Ne, ← opClass_eq_halt_iff, portOf, hc]
  revert hm
  cases c <;> decide

theorem not_halt_of_overflows {c : OpClass} (hc : i.opClass = some c)
    (hm : c ∈ [OpClass.add, .mul, .arb]) : i ≠ .halt := by
  rw [Ne, ← opClass_eq_halt_iff, hc]
  revert hm
  cases c <;> decide

theorem jump_not_halt_portless_length {q p : Param} (hi : i = .jt q p ∨ i = .jf q p) :
    i ≠ .halt ∧ portOf i = none ∧ i.length = 3 := by
  obtain rfl | rfl := hi <;> exact ⟨by simp, rfl, rfl⟩

/-- Every next state a cycle of `i` answers is one of the four ends. -/
theorem Ran.ended (h : Ran s i t) : Ended s i t := by
  cases h with
  | parameterFault f a hf hi =>
    exact .faulted s f a hi rfl rfl (by obtain ⟨rfl, -⟩ | rfl := hf <;> simp)
  | overflow c v hc hm => exact .faulted s _ _ (not_halt_of_overflows hc hm) rfl rfl (by simp)
  | stored p c d v hc hm hl =>
    obtain ⟨hi, hport⟩ := not_halt_and_portless_of_stores hc hm
    exact .completed _ hi (fun hwf => Memory.wf_put hwf _ _) (.inr ⟨rfl, hport⟩) ⟨rfl, rfl, rfl⟩
      (.inl (hl ▸ rfl))
  | inputHeld p hi => exact .held _ .input (hi ▸ rfl) rfl rfl rfl ⟨rfl, rfl, rfl⟩
  | inputFailed p hi => exact .faulted (s.sawInput none) _ _ (by simp [hi]) rfl rfl (by simp)
  | inputOverflow p v hi => exact .faulted (s.sawInput none) _ _ (by simp [hi]) rfl rfl (by simp)
  | inputStored p d v hi =>
    exact .completed _ (by simp [hi]) (fun hwf => Memory.wf_put hwf _ _) (.inl rfl)
      ⟨rfl, rfl, rfl⟩ (.inl (hi ▸ rfl))
  | outputHeld p v hi => exact .held _ .output (hi ▸ rfl) rfl rfl rfl ⟨rfl, rfl, rfl⟩
  | outputFailed p v hi => exact .faulted (s.sawOutput none) _ _ (by simp [hi]) rfl rfl (by simp)
  | outputTaken p v hi =>
    exact .completed _ (by simp [hi]) id (.inl rfl) ⟨rfl, rfl, rfl⟩ (.inl (hi ▸ rfl))
  | jumped q p v hi hr h0 =>
    obtain ⟨hne, hport, -⟩ := jump_not_halt_portless_length hi
    refine .completed _ hne id (.inr ⟨rfl, hport⟩) ⟨rfl, rfl, rfl⟩ (.inr ⟨q, p, hi, ?_⟩)
    rw [operandValue_of_resolveRead hr, jumpTo_pc, Int.toNat_of_nonneg h0]
  | passed q p hi =>
    obtain ⟨hne, hport, hl⟩ := jump_not_halt_portless_length hi
    exact .completed _ hne id (.inr ⟨rfl, hport⟩) ⟨rfl, rfl, rfl⟩ (.inl (hl ▸ rfl))
  | rebased p v hi =>
    exact .completed _ (by simp [hi]) id (.inr ⟨rfl, hi ▸ rfl⟩) ⟨rfl, rfl, rfl⟩ (.inl (hi ▸ rfl))
  | halted hi => exact .halted hi
  | skipped raw hi =>
    exact .completed _ (by simp [hi]) id (.inr ⟨rfl, hi ▸ rfl⟩) ⟨rfl, rfl, rfl⟩ (.inl (hi ▸ rfl))
  | unknownFault raw hi => exact .faulted s _ _ (by simp [hi]) rfl rfl (by simp)
  | negativeFault raw hi => exact .faulted s _ _ (by simp [hi]) rfl rfl (by simp)

/-- A refused cell is a fault of the engine (R75). -/
theorem raiseDecode_eq_raise (s : State) (e : DecodeError) :
    ∃ c a, c ≠ FaultCause.none ∧ s.raiseDecode e = s.raise c a := by
  cases e with
  | badMode raw => exact ⟨.invalidMode, raw, by simp, rfl⟩
  | immDest raw => exact ⟨.immediateDestination, raw, by simp, rfl⟩

/-- A step of a running engine ends the fetched instruction's cycle, or takes the decoder's
fault. -/
theorem step_ended (hr : s.status = .running) (h : step s = .next t) :
    (∃ i, s.fetch = .ok i ∧ Ended s i t) ∨
      (∃ e c a, s.fetch = .error e ∧ c ≠ FaultCause.none ∧ t = s.raise c a) := by
  obtain ⟨i, hi, h⟩ | ⟨e, he, rfl⟩ := cycle_next (step_running hr ▸ h)
  · exact .inl ⟨i, hi, (exec_ran h).ended⟩
  · obtain ⟨c, a, hc, heq⟩ := raiseDecode_eq_raise s e
    exact .inr ⟨e, c, a, he, hc, heq⟩

/-! ## Consistent states -/

/-- A state that took a fault with a canonical store is consistent (R141). -/
theorem consistent_raise {u : State} (hwf : u.mem.wf = true) {c : FaultCause} (hc : c ≠ .none)
    (a : Int) : Consistent (u.raise c a) := by
  refine ⟨hwf, by simp [hc], ?_, ?_, ?_, ?_⟩ <;> simp

/-- A state without a fault and without a transaction in progress is consistent when its store is
canonical. -/
theorem consistent_of_idle (hwf : s.mem.wf = true) (hs : s.status ≠ .faulted)
    (hc : s.cause = .none) (hinfo : s.info = 0) (hq : s.pending = none) : Consistent s :=
  ⟨hwf, by simp [hs, hc], fun _ => hinfo, fun _ => hq, by simp [hq], by simp [hq]⟩

/-- What consistency says of a running engine's fault registers. -/
theorem Consistent.running (h : Consistent s) (hr : s.status = .running) :
    s.mem.wf = true ∧ s.cause = .none ∧ s.info = 0 := by
  obtain ⟨hwf, hc, hinfo, -⟩ := h
  exact ⟨hwf, by simpa [hr] using hc, hinfo (by simp [hr])⟩

/-- Only the port of the fetched instruction can have a transaction in progress (R103). -/
theorem Consistent.pending_of_fetch (h : Consistent s) (hi : s.fetch = .ok i) :
    s.pending = none ∨ s.pending = portOf i := by
  obtain ⟨-, -, -, -, hin, hout⟩ := h
  cases hq : s.pending with
  | none => exact .inl rfl
  | some q =>
    refine .inr (Eq.symm ?_)
    cases q with
    | input =>
      obtain ⟨p, hp⟩ := hin hq
      exact portOf_eq_input_iff.2 ⟨p, Except.ok.inj (hi ▸ hp)⟩
    | output =>
      obtain ⟨p, hp⟩ := hout hq
      exact portOf_eq_output_iff.2 ⟨p, Except.ok.inj (hi ▸ hp)⟩

/-- At an instruction without a port, no transaction is in progress. -/
theorem Consistent.pending_of_no_port (h : Consistent s) (hi : s.fetch = .ok i)
    (hport : portOf i = none) : s.pending = none := by
  simpa [hport] using h.pending_of_fetch hi

/-- A completed instruction leaves no transaction in progress. -/
theorem Consistent.pending_of_completed (h : Consistent s) (hi : s.fetch = .ok i)
    (hq : t.pending = none ∨ (t.pending = s.pending ∧ portOf i = none)) : t.pending = none := by
  obtain hq | ⟨hq, hport⟩ := hq
  · exact hq
  · exact hq.trans (h.pending_of_no_port hi hport)

/-- Every end of a cycle keeps a running engine consistent. -/
theorem Ended.consistent (h : Ended s i t) (hs : Consistent s) (hr : s.status = .running)
    (hi : s.fetch = .ok i) : Consistent t := by
  obtain ⟨hwf, hcause, hinfo⟩ := hs.running hr
  cases h with
  | faulted u c a _ hmem _ hc => exact consistent_raise (hmem ▸ hwf) hc a
  | held _ q hport hq hmem hpc hrun =>
    have hfetch : t.fetch = .ok i := by rw [← hi, State.fetch, State.fetch, hmem, hpc]
    have hport_t : t.pending = portOf i := hq.trans hport.symm
    refine ⟨hmem ▸ hwf, by simp [hrun.status, hrun.cause, hr, hcause],
      fun _ => hrun.info.trans hinfo, fun hn => absurd (hrun.status.trans hr) hn, ?_, ?_⟩
    · simp [hport_t, hfetch]
    · simp [hport_t, hfetch]
  | halted hhalt =>
    exact consistent_of_idle hwf (by simp) hcause hinfo
      (hs.pending_of_no_port hi (hhalt ▸ rfl))
  | completed _ _ hwf' hq hrun _ =>
    exact consistent_of_idle (hwf' hwf) (by simp [hrun.status, hr]) (hrun.cause.trans hcause)
      (hrun.info.trans hinfo) (hs.pending_of_completed hi hq)

/-! ## The run state, `rb` and `pc` after a cycle -/

/-- From a running engine without a cause, HALT alone halts and exactly a recorded cause is a
fault (R15, R16). -/
theorem Ended.status (h : Ended s i t) (hr : s.status = .running) (hc : s.cause = .none) :
    (t.status = .halted ↔ i = .halt) ∧ (t.status = .faulted ↔ t.cause ≠ .none) := by
  cases h with
  | faulted u c a hi _ _ hne => simp [hi, hne]
  | held _ q hport _ _ _ hrun =>
    have hi : i ≠ .halt := by
      rintro rfl
      cases hport
    simp [hrun.status, hrun.cause, hr, hc, hi]
  | halted hi => simp [hi, hc]
  | completed _ hi _ _ hrun _ => simp [hrun.status, hrun.cause, hr, hc, hi]

/-- ARB alone changes `rb` (R13). -/
theorem Ran.opClass_of_rb_ne (h : Ran s i t) (hne : t.rb ≠ s.rb) : i.opClass = some .arb := by
  cases h with
  | rebased p v hi => rw [hi]; rfl
  | _ => exact absurd rfl hne

end Sys2Proof.Machine
end

section
/-!
SUPPORT. The length of the store is read by no operation of a cycle (spec/10_state.md R20): from
two states that differ in it alone, each shared operation answers alike when the rest does.
-/
namespace Sys2Proof.Machine

open Sys2Proof

variable {s : State} {n : Nat} {k k' : Result}

/-- The state with another length of the store over the same cells. -/
def State.resized (s : State) (n : Nat) : State := s.setMem { len := n, cells := s.mem.cells }

/-! ## What does not read the length -/

@[simp] theorem resized_status : (s.resized n).status = s.status := rfl
@[simp] theorem resized_cfg : (s.resized n).cfg = s.cfg := rfl
@[simp] theorem resized_fetch : (s.resized n).fetch = s.fetch := rfl
@[simp] theorem resized_inAnswer : (s.resized n).inAnswer = s.inAnswer := rfl
@[simp] theorem resized_fits (v : Int) : (s.resized n).fits v = s.fits v := rfl
@[simp] theorem resized_allowsWrite (a : Nat) : (s.resized n).allowsWrite a = s.allowsWrite a := rfl
@[simp] theorem resized_stores (a : InAnswer) : (s.resized n).stores a = s.stores a := by
  cases a <;> rfl
@[simp] theorem resized_destAddress (p : Param) :
    destAddress (s.resized n) p = destAddress s p := rfl
@[simp] theorem resized_resolveRead (p : Param) :
    resolveRead (s.resized n) p = resolveRead s p := rfl

/-! ## The shared operations -/

/-- A fault differs in the length alone. -/
theorem sameButLength_raise (c : FaultCause) (a : Int) :
    SameButLength (.next (s.raise c a)) (.next ((s.resized n).raise c a)) := rfl

theorem sameButLength_withOperand {p : Param} {k k' : Int → Result}
    (h : ∀ v, SameButLength (k v) (k' v)) :
    SameButLength (withOperand s p k) (withOperand (s.resized n) p k') := by
  simp only [withOperand, resized_resolveRead]
  cases resolveRead s p with
  | error a => exact sameButLength_raise _ a
  | ok v => exact h v

theorem sameButLength_withDest {i : Instr} {p : Param} {k k' : Int → Result}
    (h : ∀ a, SameButLength (k a) (k' a)) :
    SameButLength (withDest s i p k) (withDest (s.resized n) i p k') := by
  simp only [withDest, resized_destAddress]
  cases destAddress s p with
  | none => exact sameButLength_raise _ _
  | some a => exact h a

theorem sameButLength_withValidAddress (a : Int) (h : SameButLength k k') :
    SameButLength (withValidAddress s a k) (withValidAddress (s.resized n) a k') := by
  simp only [withValidAddress]
  split
  · exact sameButLength_raise _ a
  · exact h

theorem sameButLength_withFit (c : OpClass) (v : Int) (h : SameButLength k k') :
    SameButLength (withFit s c v k) (withFit (s.resized n) c v k') := by
  rw [withFit, withFit, resized_fits]
  split
  · exact h
  · exact sameButLength_raise _ _

theorem sameButLength_withRRW {i : Instr} {p1 p2 p3 : Param} {k k' : Int → Int → Int → Result}
    (h : ∀ o1 o2 d, SameButLength (k o1 o2 d) (k' o1 o2 d)) :
    SameButLength (withRRW s i p1 p2 p3 k) (withRRW (s.resized n) i p1 p2 p3 k') :=
  sameButLength_withDest fun d => sameButLength_withOperand fun o1 =>
    sameButLength_withOperand fun o2 => sameButLength_withValidAddress d (h o1 o2 d)

theorem sameButLength_storeNext (d v : Int) (k : Nat) :
    SameButLength (storeNext s d v k) (storeNext (s.resized n) d v k) := by
  by_cases hd : d < 0
  · simp only [storeNext, memWrite, if_pos hd]
    exact sameButLength_raise _ d
  · simp only [storeNext, memWrite, if_neg hd]
    rw [resized_allowsWrite]
    split <;> rfl

theorem sameButLength_branch (b : Bool) (a : Int) :
    SameButLength (branch s b a) (branch (s.resized n) b a) := by
  cases b with
  | false => rfl
  | true => exact sameButLength_withValidAddress a rfl

/-- Every answer of the input port does the same but for the length. -/
theorem sameButLength_received (d : Nat) (a : InAnswer) :
    SameButLength (.next (s.received d a)) (.next ((s.resized n).received d a)) := by
  cases a with
  | value v =>
    rw [State.received, State.received, resized_fits]
    split <;> rfl
  | notYet => rfl
  | fail => rfl

theorem sameButLength_offered (v : Int) (a : OutAnswer) :
    SameButLength (.next (s.offered v a)) (.next ((s.resized n).offered v a)) := by
  cases a <;> rfl

/-! ## The meanings -/

theorem sameButLength_execIn (p : Param) :
    SameButLength (execIn p s) (execIn p (s.resized n)) := by
  refine sameButLength_withDest fun d => sameButLength_withValidAddress d ?_
  simp only [resized_allowsWrite, resized_inAnswer, resized_stores]
  split
  · rfl
  · exact sameButLength_received _ _

theorem sameButLength_execUnknown (raw : Int) :
    SameButLength (execUnknown raw s) (execUnknown raw (s.resized n)) := by
  simp only [execUnknown, resized_cfg]
  split <;> rfl

/-- No instruction's meaning reads the length (R20). -/
theorem sameButLength_exec (i : Instr) : SameButLength (exec i s) (exec i (s.resized n)) := by
  cases i with
  | add | mul =>
    exact sameButLength_withRRW fun _ _ _ =>
      sameButLength_withFit _ _ (sameButLength_storeNext _ _ _)
  | lt | eq => exact sameButLength_withRRW fun _ _ _ => sameButLength_storeNext _ _ _
  | inp p => exact sameButLength_execIn p
  | out => exact sameButLength_withOperand fun _ => sameButLength_offered _ _
  | jt | jf =>
    exact sameButLength_withOperand fun _ => sameButLength_withOperand fun _ =>
      sameButLength_branch _ _
  | arb => exact sameButLength_withOperand fun _ => sameButLength_withFit _ _ rfl
  | halt => rfl
  | unknown raw => exact sameButLength_execUnknown raw
  | negative raw => exact sameButLength_raise _ raw

/-- No cycle reads the length: fetch reads cells only. -/
theorem sameButLength_cycle : SameButLength (cycle s) (cycle (s.resized n)) := by
  simp only [cycle, resized_fetch]
  cases s.fetch with
  | ok i => exact sameButLength_exec i
  | error e => cases e <;> rfl

end Sys2Proof.Machine
end

section

open Sys2Proof Sys2Proof.Machine

/-- Settles O51: a stopped engine stays, the decoder's fault is consistent, and so is every end of
a cycle. -/
theorem stepKeepsConsistent : Obligations.StepKeepsConsistent := by
  intro s t hs h
  obtain ⟨hr, -⟩ | ⟨-, rfl⟩ := step_next h
  · obtain ⟨i, hi, hend⟩ | ⟨e, c, a, -, hc, rfl⟩ := step_ended hr h
    · exact hend.consistent hs hr hi
    · exact consistent_raise (hs.running hr).1 hc a
  · exact hs

/-- Settles O9, by cases over the run state: a running engine's cycle does not read the length. -/
theorem storeLengthUnobservable : Obligations.StoreLengthUnobservable := by
  intro s n
  change SameButLength (step s) (step (s.resized n))
  simp only [step, resized_status]
  cases s.status with
  | running => exact sameButLength_cycle
  | halted => rfl
  | faulted => rfl

/-- Settles O47: a decoder's fault and a stopped engine keep `rb`, and of the instructions all but
ARB do. -/
theorem onlyArbChangesBase : Obligations.OnlyArbChangesBase := by
  intro s t h hne
  obtain ⟨hr, h⟩ | ⟨-, rfl⟩ := step_next h
  · obtain ⟨i, hi, h⟩ | ⟨e, -, rfl⟩ := cycle_next h
    · exact ⟨hr, (fetch_opClass_iff hi .arb).1 ((exec_ran h).opClass_of_rb_ne hne)⟩
    · cases e <;> exact absurd rfl hne
  · exact absurd rfl hne

/-- Settles O48: the ends of a cycle give the status, and HALT is what a class-99 cell decodes
to. -/
theorem statusTransitions : Obligations.StatusTransitions := by
  intro s t hr hc h
  obtain ⟨i, hi, hend⟩ | ⟨e, c, a, he, hne, rfl⟩ := step_ended hr h
  · obtain ⟨hhalt, hfault⟩ := hend.status hr hc
    exact ⟨hhalt.trans (opClass_eq_halt_iff.symm.trans (fetch_opClass_iff hi .halt)), hfault⟩
  · exact ⟨by simpa using fetch_error_not_halt he, by simp [hne]⟩

/-- Settles O50, by cases over the ends of the cycle: all but a completed instruction keep `pc`. -/
theorem pcAfterStep : Obligations.PcAfterStep := by
  intro s t i hs hr hi h
  obtain ⟨j, hj, hend⟩ | ⟨e, c, a, he, -⟩ := step_ended hr h
  · obtain rfl : i = j := Except.ok.inj (hi ▸ hj)
    cases hend with
    | faulted u c a _ _ hpc _ => exact ⟨fun _ => hpc, by simp⟩
    | held _ q _ hq _ hpc _ => exact ⟨fun _ => hpc, by simp [hq]⟩
    | halted _ => exact ⟨fun _ => rfl, by simp⟩
    | completed _ _ _ hq hrun hpc =>
      refine ⟨by simp [hrun.status, hr, hs.pending_of_completed hi hq], fun _ _ => ?_⟩
      obtain hpc | ⟨q, p, rfl | rfl, hpc⟩ := hpc
      · split
        · exact .inl hpc
        · exact .inl hpc
        · exact hpc
      · exact .inr hpc
      · exact .inr hpc
  · exact absurd (hi.symm.trans he) (by simp)

/-- Settles O2: the values R24 states, and the first fetch of an empty store. -/
theorem resetStateValues : Obligations.ResetStateValues :=
  ⟨rfl, rfl, rfl, fun _ => rfl, rfl, rfl, rfl, rfl, rfl, rfl⟩

/-- Settles O19, by cases over the run state. -/
theorem stoppedEngineStays : Obligations.StoppedEngineStays := by
  intro s h
  unfold step
  cases hs : s.status with
  | running => exact absurd hs h
  | halted => rfl
  | faulted => rfl

/-- Settles O54: the reset state is idle with an empty store, and its parameters bound nothing. -/
theorem resetMeetsInvariants : Obligations.ResetMeetsInvariants := by
  refine ⟨consistent_of_idle Memory.wf_reset (by decide) rfl rfl rfl, ⟨rfl, rfl, fun _ => rfl⟩, ?_⟩
  intro cap hcap
  cases hcap

end

section
/-!
SUPPORT. More of the store: the two primitives at a negative address, and that the canonical form
is one (spec/20_memory.md R30, R32, R33).
-/
namespace Sys2Proof.Machine

open Sys2Proof

theorem memRead_of_neg (m : Memory) {a : Int} (h : a < 0) : memRead m a = .error a := if_pos h

theorem memWrite_of_neg (m : Memory) {a : Int} (v : Int) (h : a < 0) :
    memWrite m a v = .error a := if_pos h

theorem cellsOk_cons_iff {lo hi a : Nat} {v : Int} {l : List (Nat × Int)} :
    cellsOk lo hi ((a, v) :: l) = true ↔
      lo ≤ a ∧ a < hi ∧ v ≠ 0 ∧ cellsOk (a + 1) hi l = true := by
  simp [cellsOk, and_assoc]

@[simp] theorem lookupCell_head (a : Nat) (v : Int) (l : List (Nat × Int)) :
    lookupCell a ((a, v) :: l) = v := if_pos rfl

/-- A canonical list is read from its first address on: whatever is not 0 stands no earlier. -/
theorem head_le_of_lookupCell_ne_zero {lo hi a b : Nat} {v : Int} {l : List (Nat × Int)}
    (h : cellsOk lo hi ((a, v) :: l) = true) (hb : lookupCell b ((a, v) :: l) ≠ 0) : a ≤ b := by
  obtain ⟨-, hhi, hv, hl⟩ := cellsOk_cons_iff.1 h
  refine Nat.le_of_not_lt fun hlt => hb ?_
  exact lookupCell_below (cellsOk_cons_iff.2 ⟨Nat.le_refl a, hhi, hv, hl⟩) hlt

/-- Behind a first address, two canonical lists that read the same with it read the same without
it: at and below it both read 0. -/
theorem lookupCell_tail_eq {hi hi' a : Nat} {v : Int} {l l' : List (Nat × Int)}
    (h : cellsOk (a + 1) hi l = true) (h' : cellsOk (a + 1) hi' l' = true)
    (heq : ∀ b, lookupCell b ((a, v) :: l) = lookupCell b ((a, v) :: l')) (b : Nat) :
    lookupCell b l = lookupCell b l' := by
  by_cases hb : b = a
  · rw [lookupCell_below h (by omega), lookupCell_below h' (by omega)]
  · simpa only [lookupCell, if_neg hb] using heq b

/-- Two canonical lists that read the same are the same: their first addresses bound each other,
and so on behind them. -/
theorem cells_eq_of_lookupCell_eq {lo lo' hi hi' : Nat} {l l' : List (Nat × Int)}
    (h : cellsOk lo hi l = true) (h' : cellsOk lo' hi' l' = true)
    (heq : ∀ a, lookupCell a l = lookupCell a l') : l = l' := by
  induction l generalizing lo lo' l' with
  | nil =>
    cases l' with
    | nil => rfl
    | cons c' l' =>
      obtain ⟨b, w⟩ := c'
      obtain ⟨-, -, hw, -⟩ := cellsOk_cons_iff.1 h'
      exact absurd ((lookupCell_head b w l').symm.trans (heq b).symm) hw
  | cons c l ih =>
    obtain ⟨a, v⟩ := c
    obtain ⟨-, -, hv, hl⟩ := cellsOk_cons_iff.1 h
    cases l' with
    | nil => exact absurd ((lookupCell_head a v l).symm.trans (heq a)) hv
    | cons c' l' =>
      obtain ⟨b, w⟩ := c'
      obtain ⟨-, -, hw, hl'⟩ := cellsOk_cons_iff.1 h'
      obtain rfl : a = b :=
        Nat.le_antisymm (head_le_of_lookupCell_ne_zero h (by simpa [heq b] using hw))
          (head_le_of_lookupCell_ne_zero h' (by simpa [← heq a] using hv))
      obtain rfl : v = w := by simpa using heq a
      rw [ih hl hl' (lookupCell_tail_eq hl hl' heq)]

end Sys2Proof.Machine
end

section

open Sys2Proof Sys2Proof.Machine

/-- Settles O5: a negative address fails, any other reads its cell, and a canonical store has no
cell at or beyond its length. -/
theorem memReadRule : Obligations.MemReadRule := by
  intro m a
  refine ⟨memRead_of_neg m, fun h0 _ => memRead_of_nonneg m h0, fun hwf h0 hlen => ?_⟩
  rw [memRead_of_nonneg m h0, Memory.cell_beyond hwf hlen]

/-- Settles O6: at a non-negative address `memWrite` is `put`, whose laws are those of R33. -/
theorem memWriteRule : Obligations.MemWriteRule := by
  intro m a v
  refine ⟨memWrite_of_neg m v, fun hwf h0 => ⟨_, memWrite_of_nonneg m v h0, Memory.wf_put hwf _ _,
    Memory.put_len .., Memory.cell_put_same hwf _ _, fun b hb => Memory.cell_put_other _ hb _,
    fun b hlen hb => ?_⟩⟩
  rw [Memory.cell_put_other m (Nat.ne_of_lt hb), Memory.cell_beyond hwf hlen]

/-- Settles O8: equal cells are equal lists in the canonical form. -/
theorem equalStoresAreEqualData : Obligations.EqualStoresAreEqualData := by
  rintro ⟨len, cells⟩ ⟨len', cells'⟩ hwf hwf' rfl hcell
  obtain rfl : cells = cells' := cells_eq_of_lookupCell_eq hwf hwf' hcell
  rfl

end

section
/-!
SUPPORT. What a step does to the store: nothing, or one write at the cell R46 names, below any
`MEM_CAP` (spec/20_memory.md R33, R35, R46); and which step is refused (R35).
-/
namespace Sys2Proof.Machine

open Sys2Proof

variable {s t : State} {i : Instr} {p p1 p2 p3 : Param} {e : Refusal}

/-! ## The cell an instruction writes -/

/-- The cell a completed `i` writes: `cycleWrite` of the instruction that was fetched. -/
def instrWrite (s : State) (i : Instr) : Option Nat := (destParam i).bind (readAddress s)

theorem cycleWrite_of_fetch (hi : s.fetch = .ok i) : cycleWrite s = instrWrite s i := by
  simp only [cycleWrite, hi, instrWrite]
  cases destParam i <;> rfl

theorem readAddress_of_nonneg {d : Int} (hd : destAddress s p = some d) (h0 : 0 ≤ d) :
    readAddress s p = some d.toNat := by
  simp only [readAddress, hd, if_neg (Int.not_lt.2 h0)]

theorem readAddress_eq_some {a : Nat} (h : readAddress s p = some a) :
    destAddress s p = some (a : Int) := by
  unfold readAddress at h
  split at h
  · cases h
  · next d hd =>
    split at h
    · cases h
    · rw [hd, ← Option.some.inj h, Int.toNat_of_nonneg (by omega)]

theorem instrWrite_of_dest {d : Int} (hp : destParam i = some p) (hd : destAddress s p = some d)
    (h0 : 0 ≤ d) : instrWrite s i = some d.toNat := by
  rw [instrWrite, hp, Option.bind_some, readAddress_of_nonneg hd h0]

/-! ## The one write of a cycle -/

/-- The store of `t` is that of `s`, or has one write at the cell `w`, which the cap allows. -/
def WritesAtMost (s t : State) (w : Option Nat) : Prop :=
  t.mem = s.mem ∨ ∃ a v, w = some a ∧ s.allowsWrite a = true ∧ t.mem = s.mem.put a v

theorem WritesAtMost.len_le {w : Option Nat} (h : WritesAtMost s t w) :
    s.mem.len ≤ t.mem.len := by
  obtain h | ⟨a, v, -, -, h⟩ := h
  · exact Nat.le_of_eq (congrArg Memory.len h.symm)
  · rw [h, Memory.put_len]
    exact Nat.le_max_left ..

theorem WritesAtMost.cell_other {w : Option Nat} (h : WritesAtMost s t w) {b : Nat}
    (hb : w ≠ some b) : t.mem.cell b = s.mem.cell b := by
  obtain h | ⟨a, v, rfl, -, h⟩ := h
  · rw [h]
  · have hba : b ≠ a := fun hba => hb (congrArg some hba.symm)
    rw [h, Memory.cell_put_other _ hba]

theorem allowsWrite_iff {a : Nat} :
    s.allowsWrite a = true ↔ ∀ cap, s.cfg.memCap = some cap → a < cap := by
  unfold State.allowsWrite
  split <;> simp_all

theorem allowsWrite_eq_false_iff {a : Nat} :
    s.allowsWrite a = false ↔ ∃ cap, s.cfg.memCap = some cap ∧ cap ≤ a := by
  rw [← Bool.not_eq_true, allowsWrite_iff]
  simp

/-- A write below the cap keeps the store below it (R35). -/
theorem WritesAtMost.withinCap {w : Option Nat} (h : WritesAtMost s t w) (hcfg : t.cfg = s.cfg)
    (hs : WithinCap s) : WithinCap t := by
  intro cap hcap
  rw [hcfg] at hcap
  obtain h | ⟨a, v, -, ha, h⟩ := h
  · exact h ▸ hs cap hcap
  · rw [h, Memory.put_len]
    exact Nat.max_le.2 ⟨hs cap hcap, allowsWrite_iff.1 ha cap hcap⟩

/-- The meanings that store do so at their destination; the others leave the store. -/
theorem Ran.writesAtMost (h : Ran s i t) : WritesAtMost s t (instrWrite s i) := by
  cases h with
  | stored p c d v _ _ _ hp hd h0 ha =>
    exact .inr ⟨d.toNat, v, instrWrite_of_dest hp hd h0, ha, rfl⟩
  | inputStored p d v hi _ hd h0 ha =>
    exact .inr ⟨d.toNat, v, instrWrite_of_dest (hi ▸ rfl) hd h0, ha, rfl⟩
  | _ => exact .inl rfl

/-- No meaning changes the parameters of R5. -/
theorem Ran.cfg (h : Ran s i t) : t.cfg = s.cfg := by cases h <;> rfl

/-- A step writes at most the cell of R46. -/
theorem step_writesAtMost (h : step s = .next t) : WritesAtMost s t (cycleWrite s) := by
  obtain ⟨-, h⟩ | ⟨-, rfl⟩ := step_next h
  · obtain ⟨i, hi, h⟩ | ⟨e, -, rfl⟩ := cycle_next h
    · exact cycleWrite_of_fetch hi ▸ (exec_ran h).writesAtMost
    · cases e <;> exact .inl rfl
  · exact .inl rfl

theorem step_cfg (h : step s = .next t) : t.cfg = s.cfg := by
  obtain ⟨-, h⟩ | ⟨-, rfl⟩ := step_next h
  · obtain ⟨i, -, h⟩ | ⟨e, -, rfl⟩ := cycle_next h
    · exact (exec_ran h).cfg
    · cases e <;> rfl
  · rfl

/-! ## Refusals -/

theorem withOperand_refused {k : Int → Result} (h : withOperand s p k = .refused e) :
    ∃ v, resolveRead s p = .ok v ∧ k v = .refused e := by
  unfold withOperand at h
  split at h
  · cases h
  · exact ⟨_, ‹_›, h⟩

theorem withDest_refused {k : Int → Result} (h : withDest s i p k = .refused e) :
    ∃ a, destAddress s p = some a ∧ k a = .refused e := by
  unfold withDest at h
  split at h
  · cases h
  · exact ⟨_, ‹_›, h⟩

theorem withValidAddress_refused {a : Int} {k : Result}
    (h : withValidAddress s a k = .refused e) : 0 ≤ a ∧ k = .refused e := by
  unfold withValidAddress at h
  split at h
  · cases h
  · exact ⟨by omega, h⟩

theorem withFit_refused {c : OpClass} {v : Int} {k : Result}
    (h : withFit s c v k = .refused e) : k = .refused e := by
  unfold withFit at h
  split at h
  · exact h
  · cases h

theorem withRRW_refused {k : Int → Int → Int → Result}
    (h : withRRW s i p1 p2 p3 k = .refused e) :
    ∃ o1 o2 d, destAddress s p3 = some d ∧ 0 ≤ d ∧ k o1 o2 d = .refused e := by
  obtain ⟨d, hd, h⟩ := withDest_refused h
  obtain ⟨o1, -, h⟩ := withOperand_refused h
  obtain ⟨o2, -, h⟩ := withOperand_refused h
  obtain ⟨h0, h⟩ := withValidAddress_refused h
  exact ⟨o1, o2, d, hd, h0, h⟩

theorem storeNext_refused {d v : Int} {n : Nat} (h0 : 0 ≤ d)
    (h : storeNext s d v n = .refused e) :
    s.allowsWrite d.toNat = false ∧ e = .memCapExceeded d.toNat := by
  simp only [storeNext, memWrite_of_nonneg _ v h0] at h
  split at h
  · cases h
  · next hn => exact ⟨by simpa only [Bool.not_eq_true] using hn, by simpa using h.symm⟩

theorem branch_not_refused (b : Bool) (a : Int) : branch s b a ≠ .refused e := by
  intro h
  unfold branch at h
  split at h
  · cases (withValidAddress_refused h).2
  · cases h

/-- The refusal of a write of `i` at or beyond the cap (R35). -/
def RefusedWrite (s : State) (i : Instr) (e : Refusal) : Prop :=
  ∃ a, instrWrite s i = some a ∧ s.allowsWrite a = false ∧ e = .memCapExceeded a

/-- ADD, MUL, LT and EQ are refused at their write alone: `k` can add a test that faults. -/
theorem refusedWrite_of_withRRW {k : Int → Int → Int → Result} {v : Int → Int → Int} {n : Nat}
    (hp : destParam i = some p3)
    (hk : ∀ o1 o2 d, k o1 o2 d = .refused e → storeNext s d (v o1 o2) n = .refused e)
    (h : withRRW s i p1 p2 p3 k = .refused e) : RefusedWrite s i e := by
  obtain ⟨o1, o2, d, hd, h0, h⟩ := withRRW_refused h
  obtain ⟨ha, he⟩ := storeNext_refused h0 (hk o1 o2 d h)
  exact ⟨d.toNat, instrWrite_of_dest hp hd h0, ha, he⟩

theorem execIn_refused (h : execIn p s = .refused e) : RefusedWrite s (.inp p) e := by
  obtain ⟨d, hd, h⟩ := withDest_refused h
  obtain ⟨h0, h⟩ := withValidAddress_refused h
  split at h
  · next hn =>
    simp only [Bool.and_eq_true, Bool.not_eq_true'] at hn
    exact ⟨d.toNat, instrWrite_of_dest rfl hd h0, hn.1, by simpa using h.symm⟩
  · cases h

/-- Only a write at or beyond the cap is refused. -/
theorem exec_refused (h : exec i s = .refused e) : RefusedWrite s i e := by
  cases i with
  | add | mul => exact refusedWrite_of_withRRW rfl (fun _ _ _ => withFit_refused) h
  | lt | eq => exact refusedWrite_of_withRRW rfl (fun _ _ _ => id) h
  | inp p => exact execIn_refused h
  | out p =>
    obtain ⟨v, -, h⟩ := withOperand_refused h
    cases h
  | jt | jf =>
    obtain ⟨o1, -, h⟩ := withOperand_refused h
    obtain ⟨o2, -, h⟩ := withOperand_refused h
    exact absurd h (branch_not_refused _ _)
  | arb p =>
    obtain ⟨v, -, h⟩ := withOperand_refused h
    cases withFit_refused h
  | halt => cases h
  | unknown raw =>
    simp only [exec, execUnknown] at h
    split at h <;> cases h
  | negative raw => cases h

theorem step_refused (h : step s = .refused e) : ∃ i, s.fetch = .ok i ∧ RefusedWrite s i e := by
  unfold step at h
  split at h
  · unfold cycle at h
    split at h
    · exact ⟨_, ‹_›, exec_refused h⟩
    · cases h
  · cases h
  · cases h

end Sys2Proof.Machine
end

section

open Sys2Proof Sys2Proof.Machine

/-- Settles O7: a step leaves the store or writes one cell of it, and `put` grows to the cell
written. -/
theorem storeOnlyGrows : Obligations.StoreOnlyGrows := by
  refine ⟨fun s t h => (step_writesAtMost h).len_le, fun m a v hwf hlen => ?_⟩
  refine ⟨m.put a v, memWrite_of_nonneg m v (Int.natCast_nonneg a), ?_, fun b hb hba => ?_⟩
  · rw [Memory.put_len, Nat.max_eq_right (by omega)]
  · rw [Memory.cell_put_other m (Nat.ne_of_lt hba), Memory.cell_beyond hwf hb]

/-- Settles O11: a step writes at most the cell `cycleWrite` names. -/
theorem cycleWritesOnlyItsCell : Obligations.CycleWritesOnlyItsCell :=
  fun _ _ h _ ha => (step_writesAtMost h).cell_other ha

/-- Settles O46, by cases over the outcome: no step faults outside the state, and a refusal is of
the write beyond the cap. -/
theorem refusesOnlyBeyondCap : Obligations.RefusesOnlyBeyondCap := by
  intro s
  cases h : step s with
  | next t => exact .inl ⟨t, rfl⟩
  | fault r => cases r
  | refused e =>
    obtain ⟨i, hi, a, ha, hcap, rfl⟩ := step_refused h
    obtain ⟨cap, hc, hle⟩ := allowsWrite_eq_false_iff.1 hcap
    exact .inr ⟨cap, a, hc, hle, (cycleWrite_of_fetch hi).trans ha, rfl⟩

/-- Settles O53: a step keeps the parameters and writes at most one cell, below the cap. -/
theorem stepKeepsWithinCap : Obligations.StepKeepsWithinCap :=
  fun _ _ h => ⟨step_cfg h, (step_writesAtMost h).withinCap (step_cfg h)⟩

end

section
/-!
SUPPORT. The frames of the instructions that use a destination, a port or a jump
(spec/20_memory.md R46, spec/60_exceptions.md R141), from what each meaning can do.
-/
namespace Sys2Proof.Machine

open Sys2Proof

variable {s t : State} {i : Instr} {p p1 p2 p3 : Param}

/-! ## The cells -/

/-- An instruction with a destination changes no cell but the one at its address. -/
theorem exec_cell_other (h : exec i s = .next t) (hp : destParam i = some p) {d : Int}
    (hd : destAddress s p = some d) {b : Nat} (hb : (b : Int) ≠ d) :
    t.mem.cell b = s.mem.cell b := by
  refine (exec_ran h).writesAtMost.cell_other fun hw => hb ?_
  rw [instrWrite, hp, Option.bind_some] at hw
  exact Option.some.inj ((readAddress_eq_some hw).symm.trans hd)

/-- An instruction without a destination changes no cell. -/
theorem exec_cell_of_no_dest (h : exec i s = .next t) (hp : destParam i = none) (b : Nat) :
    t.mem.cell b = s.mem.cell b :=
  (exec_ran h).writesAtMost.cell_other (by simp [instrWrite, hp])

/-! ## The other fields -/

theorem faultTaken_raise {c : FaultCause} (hc : c ≠ .none) (a : Int) :
    FaultTaken s (s.raise c a) := ⟨rfl, hc⟩

/-- The faults of a parameter are faults taken (R62, R142). -/
theorem faultTaken_of_parameter {c : FaultCause} {q : Prop}
    (hc : (c = .immediateDestination ∧ q) ∨ c = .invalidAddress) (a : Int) :
    FaultTaken s (s.raise c a) := by
  obtain ⟨rfl, -⟩ | rfl := hc
  · exact faultTaken_raise (by simp) a
  · exact faultTaken_raise (by simp) a

/-- `t` is `s` but for the store and `pc`, or with a fault taken. -/
def StoresOrFaults (s t : State) : Prop := t = { s with mem := t.mem, pc := t.pc } ∨ FaultTaken s t

theorem StoresResult.storesOrFaults {v : Int → Int → Int} {c : OpClass}
    (h : StoresResult s t p1 p2 p3 v c) : StoresOrFaults s t := by
  obtain ⟨f, a, hf, rfl⟩ | ⟨o1, o2, d, -, -, -, -, ⟨-, rfl⟩ | ⟨-, -, rfl⟩⟩ := h
  · exact .inr (faultTaken_of_parameter hf a)
  · exact .inr (faultTaken_raise (by simp) _)
  · exact .inl rfl

theorem StoresTruth.storesOrFaults {v : Int → Int → Int} (h : StoresTruth s t p1 p2 p3 v) :
    StoresOrFaults s t := by
  obtain ⟨f, a, hf, rfl⟩ | ⟨o1, o2, d, -, -, -, -, -, rfl⟩ := h
  · exact .inr (faultTaken_of_parameter hf a)
  · exact .inl rfl

theorem Jumps.frame {taken : Int → Bool} (h : Jumps s t p1 p2 taken) :
    t = { s with pc := t.pc } ∨ FaultTaken s t := by
  obtain ⟨a, rfl⟩ | ⟨o1, o2, -, -, ⟨-, -, rfl⟩ | ⟨-, rfl⟩⟩ := h
  · exact .inr (faultTaken_raise (by simp) a)
  · exact .inl rfl
  · exact .inl rfl

end Sys2Proof.Machine
end

section

open Sys2Proof Sys2Proof.Machine

/-- Settles O56: the ends of the four meanings give the fields, the one write of a cycle the
cells. -/
theorem frameThreeParameter : Obligations.FrameThreeParameter := by
  intro p1 p2 p3 s t i hi h
  simp only [List.mem_cons, List.not_mem_nil, or_false] at hi
  obtain rfl | rfl | rfl | rfl := hi
  · exact ⟨(execAdd_next h).storesOrFaults, fun _ hd _ hb => exec_cell_other h rfl hd hb⟩
  · exact ⟨(execMul_next h).storesOrFaults, fun _ hd _ hb => exec_cell_other h rfl hd hb⟩
  · exact ⟨(execLt_next h).storesOrFaults, fun _ hd _ hb => exec_cell_other h rfl hd hb⟩
  · exact ⟨(execEq_next h).storesOrFaults, fun _ hd _ hb => exec_cell_other h rfl hd hb⟩

/-- Settles O57, by cases over the port's answer; a fault is taken before the port is asked or
after. -/
theorem frameIn : Obligations.FrameIn := by
  intro p s t h
  refine ⟨?_, fun _ hd _ hb => exec_cell_other h rfl hd hb⟩
  obtain ⟨f, a, hf, rfl⟩ | ⟨d, -, -, ⟨-, rfl⟩ | ⟨-, rfl⟩ | ⟨v, -, ⟨-, rfl⟩ | ⟨-, -, rfl⟩⟩⟩ :=
    execIn_next h
  · exact .inr (.inl (faultTaken_of_parameter hf a))
  · exact .inl rfl
  · exact .inr (.inr (faultTaken_raise (by simp) _))
  · exact .inr (.inr (faultTaken_raise (by simp) _))
  · exact .inl rfl

/-- Settles O58, by cases over the port's answer; OUT has no destination. -/
theorem frameOut : Obligations.FrameOut := by
  intro p s t h
  refine ⟨?_, exec_cell_of_no_dest h rfl⟩
  obtain ⟨a, -, rfl⟩ | ⟨v, -, ⟨-, rfl⟩ | ⟨-, rfl⟩ | ⟨-, rfl⟩⟩ := execOut_next h
  · exact .inr (.inl (faultTaken_raise (by simp) a))
  · exact .inl rfl
  · exact .inr (.inr (faultTaken_raise (by simp) _))
  · exact .inl rfl

/-- Settles O59: a jump ends in a fault, at its target or past its cells, and has no
destination. -/
theorem frameJumps : Obligations.FrameJumps := by
  intro p1 p2 s t i hi h
  simp only [List.mem_cons, List.not_mem_nil, or_false] at hi
  obtain rfl | rfl := hi
  · exact ⟨(execJt_next h).frame, exec_cell_of_no_dest h rfl⟩
  · exact ⟨(execJf_next h).frame, exec_cell_of_no_dest h rfl⟩

end

section
/-!
SUPPORT. The parameter cells pass through the decoder: what it answers is read off the opcode cell,
and they are put in as they are, as many as the instruction has (spec/30_encoding.md R53, R58,
spec/40 R77).
-/
namespace Sys2Proof

/-- The instruction with other parameter cells, as many as it has. -/
def Instr.withCells (v1 v2 v3 : Int) : Instr → Instr
  | .add p1 p2 p3 => .add ⟨p1.mode, v1⟩ ⟨p2.mode, v2⟩ ⟨p3.mode, v3⟩
  | .mul p1 p2 p3 => .mul ⟨p1.mode, v1⟩ ⟨p2.mode, v2⟩ ⟨p3.mode, v3⟩
  | .inp p1 => .inp ⟨p1.mode, v1⟩
  | .out p1 => .out ⟨p1.mode, v1⟩
  | .jt p1 p2 => .jt ⟨p1.mode, v1⟩ ⟨p2.mode, v2⟩
  | .jf p1 p2 => .jf ⟨p1.mode, v1⟩ ⟨p2.mode, v2⟩
  | .lt p1 p2 p3 => .lt ⟨p1.mode, v1⟩ ⟨p2.mode, v2⟩ ⟨p3.mode, v3⟩
  | .eq p1 p2 p3 => .eq ⟨p1.mode, v1⟩ ⟨p2.mode, v2⟩ ⟨p3.mode, v3⟩
  | .arb p1 => .arb ⟨p1.mode, v1⟩
  | .halt => .halt
  | .unknown raw => .unknown raw
  | .negative raw => .negative raw

variable {raw v1 v2 v3 w1 w2 w3 : Int} {i : Instr}

@[simp] theorem Instr.length_withCells : (i.withCells v1 v2 v3).length = i.length := by
  cases i <;> rfl

/-- Cells past the arity are not used. -/
theorem Instr.withCells_congr (h1 : 1 < i.length → w1 = v1) (h2 : 2 < i.length → w2 = v2)
    (h3 : 3 < i.length → w3 = v3) : i.withCells w1 w2 w3 = i.withCells v1 v2 v3 := by
  cases i with
  | add | mul | lt | eq =>
    rw [h1 (by simp [length, params]), h2 (by simp [length, params]), h3 (by simp [length, params])]
  | jt | jf => simp only [withCells, h1 (by simp [length, params]), h2 (by simp [length, params])]
  | inp | out | arb => simp only [withCells, h1 (by simp [length, params])]
  | halt | unknown | negative => rfl

theorem decodeR_map (f : Instr → Instr) (mk : Mode → Instr) :
    (decodeR raw mk).map f = decodeR raw fun m => f (mk m) := by
  unfold decodeR
  split <;> rfl

theorem decodeW_map (f : Instr → Instr) (mk : Mode → Instr) :
    (decodeW raw mk).map f = decodeW raw fun m => f (mk m) := by
  unfold decodeW
  split <;> rfl

theorem decodeRR_map (f : Instr → Instr) (mk : Mode → Mode → Instr) :
    (decodeRR raw mk).map f = decodeRR raw fun m1 m2 => f (mk m1 m2) := by
  unfold decodeRR
  split <;> rfl

theorem decodeRRW_map (f : Instr → Instr) (mk : Mode → Mode → Mode → Instr) :
    (decodeRRW raw mk).map f = decodeRRW raw fun m1 m2 m3 => f (mk m1 m2 m3) := by
  unfold decodeRRW
  split <;> rfl

/-- The decoder decodes the opcode cell and puts the parameter cells in. -/
theorem decode_eq_map (raw v1 v2 v3 : Int) :
    decode raw v1 v2 v3 = (decode raw 0 0 0).map (Instr.withCells v1 v2 v3) := by
  by_cases hneg : raw < 0
  · simp only [decode, if_pos hneg]
    rfl
  · simp only [decode, if_neg hneg]
    cases OpClass.ofCode (raw.toNat % 100) with
    | none => rfl
    | some c =>
      cases c with
      | add | mul | lt | eq => simp only [decodeRRW_map, Instr.withCells]
      | jt | jf => simp only [decodeRR_map, Instr.withCells]
      | inp => simp only [decodeW_map, Instr.withCells]
      | out | arb => simp only [decodeR_map, Instr.withCells]
      | halt => rfl

/-- Two windows that agree on the cells the decoded instruction has decode alike; a refused opcode
cell is refused whatever follows it (R75). -/
theorem decode_congr (h : ∀ i, decode raw v1 v2 v3 = .ok i →
    (1 < i.length → w1 = v1) ∧ (2 < i.length → w2 = v2) ∧ (3 < i.length → w3 = v3)) :
    decode raw w1 w2 w3 = decode raw v1 v2 v3 := by
  rw [decode_eq_map raw w1 w2 w3]
  rw [decode_eq_map raw v1 v2 v3] at h ⊢
  cases hj : decode raw 0 0 0 with
  | error e => rfl
  | ok j =>
    obtain ⟨h1, h2, h3⟩ := h _ (congrArg (Except.map _) hj)
    rw [Instr.length_withCells] at h1 h2 h3
    exact congrArg Except.ok (Instr.withCells_congr h1 h2 h3)

end Sys2Proof
end

section
/-!
SUPPORT. What a cycle reads (spec/20_memory.md R46): a store that agrees on the cells `cycleReads`
lists gives the same fetch and the same operands, and then the same answer but for cells that were
not written.
-/
namespace Sys2Proof.Machine

open Sys2Proof

variable {s s' : State} {m : Memory} {i : Instr} {p p1 p2 p3 : Param}

/-! ## The cells of R46 -/

theorem pc_add_mem_cycleReads (hi : s.fetch = .ok i) {k : Nat} (hk : k < i.length) :
    s.pc + k ∈ cycleReads s := by
  simp only [cycleReads, hi, List.mem_append, List.mem_map, List.mem_range]
  exact .inl ⟨k, hk, rfl⟩

theorem pc_mem_cycleReads (s : State) : s.pc ∈ cycleReads s := by
  cases hi : s.fetch with
  | ok i => exact pc_add_mem_cycleReads (k := 0) hi (Nat.lt_add_right _ Nat.one_pos)
  | error e => simp [cycleReads, hi]

theorem readAddress_mem_cycleReads (hi : s.fetch = .ok i) (hp : p ∈ valueParams i) {a : Nat}
    (ha : readAddress s p = some a) : a ∈ cycleReads s := by
  simp only [cycleReads, hi, List.mem_append, List.mem_filterMap]
  exact .inr ⟨p, hp, ha⟩

/-! ## Fetch and operands in another store -/

theorem memRead_congr {m' : Memory} {a : Int} (h : 0 ≤ a → m.cell a.toNat = m'.cell a.toNat) :
    memRead m a = memRead m' a := by
  by_cases ha : a < 0
  · rw [memRead_of_neg m ha, memRead_of_neg m' ha]
  · have h0 : 0 ≤ a := Int.not_lt.1 ha
    rw [memRead_of_nonneg m h0, memRead_of_nonneg m' h0, h h0]

/-- An operand depends on the one cell it is read from. -/
theorem resolveRead_setMem (h : ∀ a, readAddress s p = some a → m.cell a = s.mem.cell a) :
    resolveRead (s.setMem m) p = resolveRead s p := by
  obtain ⟨mode, v⟩ := p
  cases mode with
  | position => exact memRead_congr fun h0 => h _ (readAddress_of_nonneg rfl h0)
  | immediate => rfl
  | relative => exact memRead_congr fun h0 => h _ (readAddress_of_nonneg rfl h0)

/-- The same cells at the addresses of R46 are the same fetch. -/
theorem fetch_setMem (h : ∀ a, a ∈ cycleReads s → m.cell a = s.mem.cell a) :
    (s.setMem m).fetch = s.fetch := by
  simp only [State.fetch, setMem_mem, setMem_pc, h _ (pc_mem_cycleReads s)]
  exact decode_congr fun i hi => ⟨fun hl => h _ (pc_add_mem_cycleReads hi hl),
    fun hl => h _ (pc_add_mem_cycleReads hi hl), fun hl => h _ (pc_add_mem_cycleReads hi hl)⟩

/-! ## The checks of a cycle in two states -/

/-- The checks before an effect look at the same things in `s` and `s'`, and `R` relates the
answers of the two that take the same fault. -/
structure ChecksAlike (R : Result → Result → Prop) (s s' : State) : Prop where
  rb : s'.rb = s.rb
  fits : ∀ v, s'.fits v = s.fits v
  raised : ∀ c a, R (.next (s.raise c a)) (.next (s'.raise c a))

section

variable {R : Result → Result → Prop} (hc : ChecksAlike R s s')

include hc

theorem ChecksAlike.withOperand {k k' : Int → Result}
    (hp : resolveRead s' p = resolveRead s p) (h : ∀ v, R (k v) (k' v)) :
    R (withOperand s p k) (withOperand s' p k') := by
  simp only [Machine.withOperand, hp]
  cases resolveRead s p with
  | error a => exact hc.raised _ a
  | ok v => exact h v

theorem ChecksAlike.withDest {k k' : Int → Result} (h : ∀ a, R (k a) (k' a)) :
    R (withDest s i p k) (withDest s' i p k') := by
  have hd : destAddress s' p = destAddress s p := by simp only [destAddress, hc.rb]
  simp only [Machine.withDest, hd]
  cases destAddress s p with
  | none => exact hc.raised _ _
  | some a => exact h a

theorem ChecksAlike.withValidAddress {k k' : Result} (a : Int) (h : R k k') :
    R (withValidAddress s a k) (withValidAddress s' a k') := by
  unfold Machine.withValidAddress
  split
  · exact hc.raised _ a
  · exact h

theorem ChecksAlike.withFit {k k' : Result} (c : OpClass) (v : Int) (h : R k k') :
    R (withFit s c v k) (withFit s' c v k') := by
  rw [Machine.withFit, Machine.withFit, hc.fits]
  split
  · exact h
  · exact hc.raised _ _

theorem ChecksAlike.withRRW {k k' : Int → Int → Int → Result}
    (h1 : resolveRead s' p1 = resolveRead s p1) (h2 : resolveRead s' p2 = resolveRead s p2)
    (h : ∀ o1 o2 d, R (k o1 o2 d) (k' o1 o2 d)) :
    R (withRRW s i p1 p2 p3 k) (withRRW s' i p1 p2 p3 k') :=
  hc.withDest fun d => hc.withOperand h1 fun o1 => hc.withOperand h2 fun o2 =>
    hc.withValidAddress d (h o1 o2 d)

end

/-! ## The effects in two stores -/

/-- Two stores that neither answer wrote. -/
theorem sameButUnread_kept (t : State) (m m' : Memory) :
    SameButUnread m m' (.next (t.setMem m)) (.next (t.setMem m')) :=
  ⟨rfl, fun _ => .inr ⟨rfl, rfl⟩⟩

/-- Two stores with the same write: the cell written is the same, any other its own store's. -/
theorem sameButUnread_put (t : State) {m m' : Memory} (hwf : m.wf = true) (hwf' : m'.wf = true)
    (d : Nat) (v : Int) :
    SameButUnread m m' (.next (t.setMem (m.put d v))) (.next (t.setMem (m'.put d v))) := by
  refine ⟨rfl, fun a => ?_⟩
  by_cases ha : a = d
  · subst ha
    exact .inl ((Memory.cell_put_same hwf' a v).trans (Memory.cell_put_same hwf a v).symm)
  · exact .inr ⟨Memory.cell_put_other m ha v, Memory.cell_put_other m' ha v⟩

theorem checksAlike_setMem (s : State) (m : Memory) :
    ChecksAlike (SameButUnread s.mem m) s (s.setMem m) where
  rb := rfl
  fits _ := rfl
  raised c a := sameButUnread_kept (s.raise c a) s.mem m

theorem sameButUnread_branch (b : Bool) (a : Int) :
    SameButUnread s.mem m (branch s b a) (branch (s.setMem m) b a) := by
  cases b with
  | false => exact sameButUnread_kept (s.advance 3) s.mem m
  | true =>
    exact (checksAlike_setMem s m).withValidAddress a (sameButUnread_kept (s.jumpTo _) s.mem m)

theorem sameButUnread_offered (v : Int) (a : OutAnswer) :
    SameButUnread s.mem m (.next (s.offered v a)) (.next ((s.setMem m).offered v a)) := by
  cases a with
  | accepted => exact sameButUnread_kept (s.offered v .accepted) s.mem m
  | notYet => exact sameButUnread_kept (s.offered v .notYet) s.mem m
  | fail => exact sameButUnread_kept (s.offered v .fail) s.mem m

theorem sameButUnread_execUnknown (raw : Int) :
    SameButUnread s.mem m (execUnknown raw s) (execUnknown raw (s.setMem m)) := by
  simp only [execUnknown, setMem_cfg]
  split
  · exact sameButUnread_kept ((s.record (.report s.pc raw)).advance 1) s.mem m
  · exact sameButUnread_kept (s.raise .unknownOpcode raw) s.mem m

section

variable (hwf : s.mem.wf = true) (hwf' : m.wf = true)

include hwf hwf'

theorem sameButUnread_storeNext (d v : Int) (n : Nat) :
    SameButUnread s.mem m (storeNext s d v n) (storeNext (s.setMem m) d v n) := by
  by_cases hd : d < 0
  · simp only [storeNext, memWrite_of_neg _ v hd]
    exact sameButUnread_kept (s.raise .invalidAddress d) s.mem m
  · have ha : (s.setMem m).allowsWrite d.toNat = s.allowsWrite d.toNat := rfl
    simp only [storeNext, memWrite_of_nonneg _ v (Int.not_lt.1 hd), ha]
    split
    · exact sameButUnread_put (s.advance n) hwf hwf' d.toNat v
    · rfl

theorem sameButUnread_received (d : Nat) (a : InAnswer) :
    SameButUnread s.mem m (.next (s.received d a)) (.next ((s.setMem m).received d a)) := by
  cases a with
  | value v =>
    have hf : (s.setMem m).fits v = s.fits v := rfl
    rw [State.received, State.received, hf]
    split
    · exact sameButUnread_put (((s.sawInput none).record (.input v)).advance 2) hwf hwf' d v
    · exact sameButUnread_kept ((s.sawInput none).raise .arithmeticOverflow _) s.mem m
  | notYet => exact sameButUnread_kept (s.sawInput (some .input)) s.mem m
  | fail => exact sameButUnread_kept ((s.sawInput none).raise .portFailure 0) s.mem m

theorem sameButUnread_execIn (p : Param) :
    SameButUnread s.mem m (execIn p s) (execIn p (s.setMem m)) := by
  refine (checksAlike_setMem s m).withDest fun d => (checksAlike_setMem s m).withValidAddress d ?_
  have hstores : (s.setMem m).stores (s.setMem m).inAnswer = s.stores s.inAnswer := by
    change (s.setMem m).stores s.inAnswer = _
    cases s.inAnswer <;> rfl
  have ha : (s.setMem m).allowsWrite d.toNat = s.allowsWrite d.toNat := rfl
  rw [hstores, ha]
  split
  · rfl
  · exact sameButUnread_received hwf hwf' d.toNat s.inAnswer

/-- A meaning whose operands resolve alike answers alike. -/
theorem sameButUnread_exec
    (hr : ∀ p, p ∈ valueParams i → resolveRead (s.setMem m) p = resolveRead s p) :
    SameButUnread s.mem m (exec i s) (exec i (s.setMem m)) := by
  have hc := checksAlike_setMem s m
  cases i with
  | add p1 p2 p3 | mul p1 p2 p3 =>
    exact hc.withRRW (hr p1 (by simp [valueParams])) (hr p2 (by simp [valueParams]))
      fun _ _ d => hc.withFit _ _ (sameButUnread_storeNext hwf hwf' d _ _)
  | lt p1 p2 p3 | eq p1 p2 p3 =>
    exact hc.withRRW (hr p1 (by simp [valueParams])) (hr p2 (by simp [valueParams]))
      fun _ _ d => sameButUnread_storeNext hwf hwf' d _ _
  | inp p => exact sameButUnread_execIn hwf hwf' p
  | out p =>
    exact hc.withOperand (hr p (by simp [valueParams])) fun v => sameButUnread_offered v _
  | jt p1 p2 | jf p1 p2 =>
    exact hc.withOperand (hr p1 (by simp [valueParams])) fun _ =>
      hc.withOperand (hr p2 (by simp [valueParams])) fun a => sameButUnread_branch _ a
  | arb p =>
    exact hc.withOperand (hr p (by simp [valueParams])) fun v =>
      hc.withFit _ _ (sameButUnread_kept ((s.setRb (s.rb + v)).advance 2) s.mem m)
  | halt => exact sameButUnread_kept s.halt s.mem m
  | unknown raw => exact sameButUnread_execUnknown raw
  | negative raw => exact hc.raised _ raw

/-- A cycle depends on no cell but those of R46. -/
theorem sameButUnread_cycle (h : ∀ a, a ∈ cycleReads s → m.cell a = s.mem.cell a) :
    SameButUnread s.mem m (cycle s) (cycle (s.setMem m)) := by
  simp only [cycle, fetch_setMem h]
  cases hi : s.fetch with
  | ok i =>
    exact sameButUnread_exec hwf hwf' fun p hp =>
      resolveRead_setMem fun a ha => h a (readAddress_mem_cycleReads hi hp ha)
  | error e =>
    cases e with
    | badMode raw => exact (checksAlike_setMem s m).raised _ raw
    | immDest raw => exact (checksAlike_setMem s m).raised _ raw

end

end Sys2Proof.Machine
end

section

open Sys2Proof Sys2Proof.Machine

/-- Settles O10, by cases over the run state: a stopped engine keeps either store, and a running
engine's cycle fetches and resolves alike. -/
theorem cycleReadsOnlyItsCells : Obligations.CycleReadsOnlyItsCells := by
  intro s m hwf hwf' h
  simp only [step, setMem_status]
  cases s.status with
  | running => exact sameButUnread_cycle hwf hwf' h
  | halted => exact sameButUnread_kept s s.mem m
  | faulted => exact sameButUnread_kept s s.mem m

end

section
/-!
SUPPORT. One specification of the decoder on a cell of a known class: which cells it refuses, read off
the list of used modes, and which instruction it answers, as the instruction whose encoding is the
canonical cell and the parameter cells (spec/30_encoding.md R51, R53 to R62).
-/
namespace Sys2Proof

variable {raw v1 v2 v3 : Int} {i : Instr} {c : OpClass}

/-! ## The used mode digits -/

/-- R53: the modes of the first `k` parameters, `none` where the digit is no mode. -/
def usedModes (raw : Int) (k : Nat) : List (Option Mode) := (List.range' 1 k).map (paramMode raw)

@[simp] theorem usedModes_zero : usedModes raw 0 = [] := rfl
@[simp] theorem usedModes_one : usedModes raw 1 = [paramMode raw 1] := rfl
@[simp] theorem usedModes_two : usedModes raw 2 = [paramMode raw 1, paramMode raw 2] := rfl
@[simp] theorem usedModes_three :
    usedModes raw 3 = [paramMode raw 1, paramMode raw 2, paramMode raw 3] := rfl

theorem Mode.ofDigit_eq_some_iff {n : Nat} {m : Mode} : Mode.ofDigit n = some m ↔ m.toDigit = n :=
  ⟨fun h => (Mode.digit_of_ofDigit h).symm, fun h => h ▸ Mode.ofDigit_toDigit m⟩

theorem none_mem_usedModes_iff {k : Nat} :
    none ∈ usedModes raw k ↔ ∃ j, 1 ≤ j ∧ j ≤ k ∧ 2 < digit raw.toNat (j + 1) := by
  have hmem (j : Nat) : (1 ≤ j ∧ j < 1 + k) ↔ (1 ≤ j ∧ j ≤ k) := by omega
  simp only [usedModes, List.mem_map, List.mem_range'_1, paramMode, Mode.ofDigit_eq_none_iff, hmem,
    and_assoc]

theorem none_notMem_usedModes_iff {k : Nat} :
    none ∉ usedModes raw k ↔ ∀ j, 1 ≤ j → j ≤ k → digit raw.toNat (j + 1) ≤ 2 := by
  simp only [none_mem_usedModes_iff, not_exists, not_and, Nat.not_lt]

/-- R54, R62: the mode digit of immediate mode is 1. -/
theorem paramMode_eq_immediate_iff {j : Nat} :
    paramMode raw j = some .immediate ↔ digit raw.toNat (j + 1) = 1 :=
  Mode.ofDigit_eq_some_iff.trans eq_comm

/-! ## The cells the decoder refuses -/

/-- R75: how a cell of a known class with `k` parameters, the last one a destination where `writes`
holds, is refused: first for a used digit that is no mode (R61), then for an immediate destination
(R62). -/
def RefusedAs (raw : Int) (writes : Bool) (k : Nat) (e : DecodeError) : Prop :=
  (none ∈ usedModes raw k ∧ e = .badMode raw) ∨
    (none ∉ usedModes raw k ∧ writes = true ∧ paramMode raw k = some .immediate ∧
      e = .immDest raw)

theorem refusedAs_badMode_iff {w : Bool} {k : Nat} :
    RefusedAs raw w k (.badMode raw) ↔ none ∈ usedModes raw k := by simp [RefusedAs]

theorem refusedAs_immDest_iff {w : Bool} {k : Nat} :
    RefusedAs raw w k (.immDest raw) ↔
      none ∉ usedModes raw k ∧ w = true ∧ paramMode raw k = some .immediate := by simp [RefusedAs]

theorem decodeR_error_iff {mk : Mode → Instr} {e : DecodeError} :
    decodeR raw mk = .error e ↔ RefusedAs raw false 1 e := by
  cases h1 : paramMode raw 1 <;> simp [decodeR, RefusedAs, h1, eq_comm]

theorem decodeW_error_iff {mk : Mode → Instr} {e : DecodeError} :
    decodeW raw mk = .error e ↔ RefusedAs raw true 1 e := by
  rcases h1 : paramMode raw 1 with _ | _ | _ | _ <;>
    simp [decodeW, RefusedAs, h1, eq_comm]

theorem decodeRR_error_iff {mk : Mode → Mode → Instr} {e : DecodeError} :
    decodeRR raw mk = .error e ↔ RefusedAs raw false 2 e := by
  cases h1 : paramMode raw 1 <;> cases h2 : paramMode raw 2 <;>
    simp [decodeRR, RefusedAs, h1, h2, eq_comm]

theorem decodeRRW_error_iff {mk : Mode → Mode → Mode → Instr} {e : DecodeError} :
    decodeRRW raw mk = .error e ↔ RefusedAs raw true 3 e := by
  cases h1 : paramMode raw 1 <;> cases h2 : paramMode raw 2 <;>
    rcases h3 : paramMode raw 3 with _ | _ | _ | _ <;>
    simp [decodeRRW, RefusedAs, h1, h2, h3, eq_comm]

/-- Which cells of a known class the decoder refuses, and how (R75). -/
theorem decode_error_iff (h0 : 0 ≤ raw) (hc : OpClass.ofCode (raw.toNat % 100) = some c)
    {e : DecodeError} :
    decode raw v1 v2 v3 = .error e ↔ RefusedAs raw c.writes c.arity e := by
  simp only [decode, if_neg (Int.not_lt.2 h0), hc]
  cases c with
  | add | mul | lt | eq => exact decodeRRW_error_iff
  | jt | jf => exact decodeRR_error_iff
  | inp => exact decodeW_error_iff
  | out | arb => exact decodeR_error_iff
  | halt => simp [RefusedAs, OpClass.writes, OpClass.arity]

/-! ## The instruction a cell decodes to -/

theorem decode_of_neg (h : raw < 0) : decode raw v1 v2 v3 = .ok (.negative raw) := if_pos h

theorem decode_of_unknown (h0 : 0 ≤ raw) (h : raw.toNat % 100 ∉ knownClasses) :
    decode raw v1 v2 v3 = .ok (.unknown raw) := by
  simp only [decode, if_neg (Int.not_lt.2 h0), (OpClass.ofCode_eq_none_iff _).2 h]

theorem decodeR_of_mode {m : Mode} (mk : Mode → Instr) (h : paramMode raw 1 = some m) :
    decodeR raw mk = .ok (mk m) := by simp only [decodeR, h]

theorem decodeW_of_mode {m : Mode} (mk : Mode → Instr) (h : paramMode raw 1 = some m)
    (hm : m ≠ .immediate) : decodeW raw mk = .ok (mk m) := by
  cases m with
  | immediate => exact absurd rfl hm
  | position | relative => simp only [decodeW, h]

theorem decodeRR_of_modes {m1 m2 : Mode} (mk : Mode → Mode → Instr)
    (h1 : paramMode raw 1 = some m1) (h2 : paramMode raw 2 = some m2) :
    decodeRR raw mk = .ok (mk m1 m2) := by simp only [decodeRR, h1, h2]

theorem decodeRRW_of_modes {m1 m2 m3 : Mode} (mk : Mode → Mode → Mode → Instr)
    (h1 : paramMode raw 1 = some m1) (h2 : paramMode raw 2 = some m2)
    (h3 : paramMode raw 3 = some m3) (hm : m3 ≠ .immediate) :
    decodeRRW raw mk = .ok (mk m1 m2 m3) := by
  cases m3 with
  | immediate => exact absurd rfl hm
  | position | relative => simp only [decodeRRW, h1, h2, h3]

/-- What a cell of a known class decodes to: the well-formed instruction of that class with the
used modes and the parameter cells (R53, R58, R62). -/
theorem decode_ok_iff (h0 : 0 ≤ raw) (hc : OpClass.ofCode (raw.toNat % 100) = some c) :
    decode raw v1 v2 v3 = .ok i ↔
      i.opClass = some c ∧ i.wf = true ∧ i.params.map Param.value = [v1, v2, v3].take c.arity ∧
        i.params.map (fun p => some p.mode) = usedModes raw c.arity := by
  simp only [decode, if_neg (Int.not_lt.2 h0), hc]
  constructor
  · intro h
    cases c with
    | add | mul | lt | eq =>
      obtain ⟨m1, m2, m3, hm, h1, h2, h3, rfl⟩ := decodeRRW_ok h
      simp [Instr.opClass, Instr.wf, Instr.params, Param.isDest, OpClass.arity, hm, h1, h2, h3]
    | jt | jf =>
      obtain ⟨m1, m2, h1, h2, rfl⟩ := decodeRR_ok h
      simp [Instr.opClass, Instr.wf, Instr.params, OpClass.arity, h1, h2]
    | inp =>
      obtain ⟨m1, hm, h1, rfl⟩ := decodeW_ok h
      simp [Instr.opClass, Instr.wf, Instr.params, Param.isDest, OpClass.arity, hm, h1]
    | out | arb =>
      obtain ⟨m1, h1, rfl⟩ := decodeR_ok h
      simp [Instr.opClass, Instr.wf, Instr.params, OpClass.arity, h1]
    | halt =>
      cases h
      simp [Instr.opClass, Instr.wf, Instr.params, OpClass.arity]
  · rintro ⟨hi, hwf, hv, hm⟩
    cases i with
    | add p1 p2 p3 | mul p1 p2 p3 | lt p1 p2 p3 | eq p1 p2 p3 =>
      cases hi
      cases hv
      obtain ⟨h1, h2, h3⟩ : _ ∧ _ ∧ _ := by simpa [Instr.params, OpClass.arity] using hm
      exact decodeRRW_of_modes _ h1.symm h2.symm h3.symm (of_decide_eq_true hwf)
    | jt p1 p2 | jf p1 p2 =>
      cases hi
      cases hv
      obtain ⟨h1, h2⟩ : _ ∧ _ := by simpa [Instr.params, OpClass.arity] using hm
      exact decodeRR_of_modes _ h1.symm h2.symm
    | inp p =>
      cases hi
      cases hv
      exact decodeW_of_mode _ (List.cons.inj hm).1.symm (of_decide_eq_true hwf)
    | out p | arb p =>
      cases hi
      cases hv
      exact decodeR_of_mode _ (List.cons.inj hm).1.symm
    | halt => cases hi; rfl
    | unknown raw | negative raw => cases hi

/-! ## The canonical cell -/

/-- The mode digits of `ps` are the digits of the cell from weight `10^(k+1)` on exactly when the
cell's modes from parameter `k` on are those of `ps` (R51, R53). -/
theorem modeDigits_eq_iff (raw : Int) (ps : List Param) (k : Nat) :
    modeDigits ps = raw.toNat / 10 ^ (k + 1) % 10 ^ ps.length ↔
      ps.map (fun p => some p.mode) = (List.range' k ps.length).map (paramMode raw) := by
  induction ps generalizing k with
  | nil => simp [modeDigits, Nat.mod_one]
  | cons p ps ih =>
    have hhead : some p.mode = paramMode raw k ↔ p.mode.toDigit = raw.toNat / 10 ^ (k + 1) % 10 :=
      eq_comm.trans Mode.ofDigit_eq_some_iff
    have htail := ih (k + 1)
    rw [Nat.pow_succ _ (k + 1), ← Nat.div_div_eq_div_mul] at htail
    have hp := p.mode.toDigit_le
    simp only [modeDigits, List.length_cons, List.range'_succ, List.map_cons, List.cons.injEq,
      hhead, ← htail, Nat.pow_succ', Nat.mod_mul]
    omega

theorem modeDigits_lt (ps : List Param) : modeDigits ps < 10 ^ ps.length := by
  induction ps with
  | nil => simp [modeDigits]
  | cons p ps ih =>
    have hp := p.mode.toDigit_le
    simp only [modeDigits, List.length_cons, Nat.pow_succ]
    omega

theorem Instr.params_length (h : i.opClass = some c) : i.params.length = c.arity := by
  cases i <;> cases h <;> rfl

theorem Instr.opcodeCell_of_opClass (h : i.opClass = some c) :
    i.opcodeCell = opcodeCellOf c i.params := by
  cases i <;> cases h <;> rfl

theorem length_encode (i : Instr) : (encode i).length = i.length := by
  simp only [encode, Instr.length, List.length_cons, List.length_map, Nat.add_comm]

/-- A canonical opcode cell has no digit above its last mode digit (R59). -/
theorem opcodeCellOf_lt (c : OpClass) (ps : List Param) :
    (opcodeCellOf c ps).toNat < 10 ^ (ps.length + 2) := by
  have hc := c.code_lt
  have hps := modeDigits_lt ps
  simp only [opcodeCellOf, Int.toNat_natCast, Nat.pow_add]
  omega

/-- The digits of a cell of class `c` up to its last mode digit are the canonical cell of the
parameters exactly when these have the used modes (R51, R55). -/
theorem opcodeCell_eq_mod_iff (hc : raw.toNat % 100 = c.code) (hi : i.opClass = some c) :
    i.opcodeCell = ((raw.toNat % 10 ^ (c.arity + 2) : Nat) : Int) ↔
      i.params.map (fun p => some p.mode) = usedModes raw c.arity := by
  have hsplit : raw.toNat % 10 ^ (c.arity + 2) =
      c.code + 100 * (raw.toNat / 10 ^ (1 + 1) % 10 ^ c.arity) := by
    rw [Nat.pow_add', Nat.mod_mul, ← hc]
  rw [Instr.opcodeCell_of_opClass hi, opcodeCellOf, hsplit, usedModes, ← Instr.params_length hi,
    ← modeDigits_eq_iff]
  omega

/-- Decoding and encoding against each other: a cell of a known class decodes to exactly the
well-formed instruction of its class whose encoding is the cell without the digits above the last
mode digit, and as many of the parameter cells as the arity (R50, R55, R59). -/
theorem decode_ok_iff_encode (h0 : 0 ≤ raw) (hc : OpClass.ofCode (raw.toNat % 100) = some c) :
    decode raw v1 v2 v3 = .ok i ↔
      i.opClass = some c ∧ i.wf = true ∧
        encode i = ((raw.toNat % 10 ^ (c.arity + 2) : Nat) : Int) :: [v1, v2, v3].take c.arity := by
  rw [decode_ok_iff h0 hc]
  refine and_congr_right fun hi => and_congr_right fun _ => ?_
  rw [encode, List.cons.injEq, opcodeCell_eq_mod_iff (OpClass.code_of_ofCode hc) hi, and_comm]

/-- A well-formed instruction is negative, unknown, or of a class (R60, R63). -/
theorem Instr.wf_cases (h : i.wf = true) :
    (∃ raw, raw < 0 ∧ i = .negative raw) ∨
      (∃ raw, 0 ≤ raw ∧ raw.toNat % 100 ∉ knownClasses ∧ i = .unknown raw) ∨
      ∃ c, i.opClass = some c := by
  cases i with
  | negative raw => exact .inl ⟨raw, Laws.CellClass.negative raw h, rfl⟩
  | unknown raw =>
    obtain ⟨h0, hc⟩ := Laws.CellClass.unknown raw h
    exact .inr (.inl ⟨raw, h0, hc, rfl⟩)
  | _ => exact .inr (.inr ⟨_, rfl⟩)

/-- The first three cells of a list read, as many as `l` has, are `l` where it is short enough. -/
theorem take_getD_append {l : List Int} (rest : List Int) (h : l.length ≤ 3) :
    [(l ++ rest).getD 0 0, (l ++ rest).getD 1 0, (l ++ rest).getD 2 0].take l.length = l := by
  match l, h with
  | [], _ | [_], _ | [_, _], _ | [_, _, _], _ => rfl

theorem OpClass.arity_le (c : OpClass) : c.arity ≤ 3 := by cases c <;> decide

/-- The decoder on a window whose first cells are the encoding's gives the instruction back. -/
theorem decode_encode (h : i.wf = true) (rest : List Int) :
    decode ((encode i ++ rest).getD 0 0) ((encode i ++ rest).getD 1 0)
      ((encode i ++ rest).getD 2 0) ((encode i ++ rest).getD 3 0) = .ok i := by
  obtain ⟨raw, hneg, rfl⟩ | ⟨raw, h0, hraw, rfl⟩ | ⟨c, hc⟩ := i.wf_cases h
  · exact decode_of_neg hneg
  · exact decode_of_unknown h0 hraw
  · have hlen := Instr.params_length hc
    have hcell := Instr.opcodeCell_of_opClass hc
    have hlt := opcodeCellOf_lt c i.params
    have hmod := opcodeCell_mod c i.params
    rw [← hcell] at hlt hmod
    have h0 : 0 ≤ i.opcodeCell := hcell ▸ Int.natCast_nonneg _
    refine (decode_ok_iff_encode h0 (hmod ▸ c.ofCode_code)).2 ⟨hc, h, ?_⟩
    rw [← hlen, Nat.mod_eq_of_lt hlt, Int.toNat_of_nonneg h0]
    have hvals := take_getD_append (l := i.params.map Param.value) rest
      (by simpa [hlen] using c.arity_le)
    rw [List.length_map] at hvals
    exact congrArg _ hvals.symm

/-- Whatever decodes is well formed (R60, R62, R63). -/
theorem wf_of_decode (h : decode raw v1 v2 v3 = .ok i) : i.wf = true := by
  obtain ⟨hneg, rfl⟩ | ⟨h0, hnone, rfl⟩ | ⟨c, h0, hc, -⟩ := decode_ok h
  · simpa [Instr.wf] using hneg
  · simpa [Instr.wf, h0] using (OpClass.ofCode_eq_none_iff _).1 hnone
  · obtain ⟨-, hwf, -⟩ := (decode_ok_iff h0 hc).1 h
    exact hwf

end Sys2Proof
end

section

open Sys2Proof Sys2Proof.Machine

/-- Settles O12, by the decoder's inverse on the encoding and the number of cells it takes. -/
theorem decodeOfEncode : Obligations.DecodeOfEncode := by
  intro i rest hwf
  simp only [decodeCells, decode_encode hwf rest, ← length_encode, List.drop_left]

/-- Settles O13, one direction of `decode_ok_iff_encode`. -/
theorem encodeOfDecodeIsCanonical : Obligations.EncodeOfDecodeIsCanonical := by
  intro raw v1 v2 v3 i c h0 hc h
  obtain ⟨-, -, henc⟩ := (decode_ok_iff_encode h0 hc).1 h
  exact henc

/-- Settles O15: both cells have the same class and the same canonical cell. -/
theorem highDigitsIgnored : Obligations.HighDigitsIgnored := by
  intro raw v1 v2 v3 i c h0 hc
  have hc' : raw.toNat % 10 ^ (c.arity + 2) % 100 = raw.toNat % 100 :=
    Nat.mod_mod_of_dvd _ ⟨10 ^ c.arity, by rw [Nat.pow_add, Nat.mul_comm]⟩
  rw [decode_ok_iff_encode h0 hc, decode_ok_iff_encode (Int.natCast_nonneg _)
    (by rwa [Int.toNat_natCast, hc']), Int.toNat_natCast, Nat.mod_mod]

/-- Settles O16, by the three kinds of cell that decode: negative, unknown, of a known class. -/
theorem decodedIsWellFormed : Obligations.DecodedIsWellFormed :=
  fun _ _ _ _ _ h => wf_of_decode h

/-- Settles O17, by evaluating the decoder on each word. -/
theorem decodesWrittenWords : Obligations.DecodesWrittenWords :=
  ⟨rfl, rfl, rfl, rfl, rfl, rfl, rfl, rfl, rfl, rfl⟩

end

section
/-!
SUPPORT. The two faults of the decoder in a step: a refused cell takes its fault without effect, and
no meaning of a decoded instruction takes one of them (spec/30_encoding.md R61, R62;
spec/60_exceptions.md R141, R143, R144).
-/
namespace Sys2Proof.Machine

open Sys2Proof

variable {s t : State} {i : Instr} {p : Param} {e : DecodeError} {c : OpClass}

/-- Taking a fault leaves what R141 says. -/
theorem faultsWith_raise (s : State) (c : FaultCause) (a : Int) :
    FaultsWith s (.next (s.raise c a)) c a :=
  ⟨_, rfl, rfl, rfl, rfl, rfl, rfl, rfl, rfl, rfl, rfl, rfl⟩

theorem step_of_fetch_error (hr : s.status = .running) (he : s.fetch = .error e) :
    step s = .next (s.raiseDecode e) := by
  simp only [step_running hr, cycle, he]

/-- How the cell at `pc` is refused, when its class is known. -/
theorem fetch_error_iff (h0 : 0 ≤ s.mem.cell s.pc)
    (hc : (s.mem.cell s.pc).toNat % 100 = c.code) :
    s.fetch = .error e ↔ RefusedAs (s.mem.cell s.pc) c.writes c.arity e :=
  decode_error_iff h0 (hc ▸ c.ofCode_code)

/-- A refused cell is non-negative and of a known class, and is refused as R75 says. -/
theorem refusedAs_of_fetch_error (he : s.fetch = .error e) :
    0 ≤ s.mem.cell s.pc ∧ ∃ c : OpClass, (s.mem.cell s.pc).toNat % 100 = c.code ∧
      RefusedAs (s.mem.cell s.pc) c.writes c.arity e := by
  obtain ⟨c, h0, hc, -⟩ := decode_error he
  exact ⟨h0, c, OpClass.code_of_ofCode hc, (decode_error_iff h0 hc).1 he⟩

/-- A well-formed instruction's destination has an address (R62, R79). -/
theorem destAddress_ne_none_of_wf (hwf : i.wf = true) (hp : destParam i = some p) :
    destAddress s p ≠ none := by
  have hmode : p.mode ≠ .immediate := by
    cases i <;> cases hp <;> exact of_decide_eq_true hwf
  obtain ⟨m, v⟩ := p
  cases m with
  | immediate => exact absurd rfl hmode
  | position | relative => exact Option.some_ne_none _

/-- The meaning of a well-formed instruction takes neither fault of the decoder. -/
theorem Ran.not_decoder_fault (h : Ran s i t) (hwf : i.wf = true) (hr : s.status = .running)
    (hf : t.status = .faulted) : t.cause ≠ .invalidMode ∧ t.cause ≠ .immediateDestination := by
  cases h with
  | parameterFault f a hpar =>
    obtain ⟨-, p, hp, hnone⟩ | rfl := hpar
    · exact absurd hnone (destAddress_ne_none_of_wf hwf hp)
    · simp
  | overflow | inputFailed | inputOverflow | outputFailed | unknownFault | negativeFault => simp
  | stored | inputHeld | inputStored | outputHeld | outputTaken | jumped | passed | rebased
  | halted | skipped => simp [hr] at hf

/-- A step that faults with a cause of the decoder took the fault of a refused cell. -/
theorem fetch_error_of_decoder_fault (hr : s.status = .running) (h : step s = .next t)
    (hf : t.status = .faulted) (hc : t.cause = .invalidMode ∨ t.cause = .immediateDestination) :
    ∃ e, s.fetch = .error e ∧ t = s.raiseDecode e := by
  obtain ⟨i, hi, h⟩ | he := cycle_next (step_running hr ▸ h)
  · obtain ⟨hmode, hdest⟩ := (exec_ran h).not_decoder_fault (wf_of_decode hi) hr hf
    exact absurd hc (not_or.2 ⟨hmode, hdest⟩)
  · exact he

end Sys2Proof.Machine
end

section

open Sys2Proof Sys2Proof.Machine

/-- Settles O37: the bad mode is refused by the decoder before all else, and no other cell's step
takes the decoder's fault. -/
theorem invalidModeFaults : Obligations.InvalidModeFaults := by
  refine ⟨fun s c j hr h0 hc h1 hk hj => ?_, fun s t hr h hf hcause => ?_⟩
  · have hbad := none_mem_usedModes_iff.2 ⟨j, h1, hk, hj⟩
    rw [step_of_fetch_error hr ((fetch_error_iff h0 hc).2 (refusedAs_badMode_iff.2 hbad))]
    exact faultsWith_raise s .invalidMode _
  · obtain ⟨e, he, rfl⟩ := fetch_error_of_decoder_fault hr h hf (.inl hcause)
    obtain ⟨h0, c, hc, ⟨hbad, -⟩ | ⟨-, -, -, rfl⟩⟩ := refusedAs_of_fetch_error he
    · obtain ⟨j, hj⟩ := none_mem_usedModes_iff.1 hbad
      exact ⟨h0, c, j, hc, hj⟩
    · cases hcause

/-- Settles O38: with every used digit a mode the decoder refuses the immediate destination, and no
other cell's step takes its fault. -/
theorem immediateDestinationFaults : Obligations.ImmediateDestinationFaults := by
  refine ⟨fun s c hr h0 hc hw hmodes hdest => ?_, fun s t hr h hf hcause => ?_⟩
  · have himm := refusedAs_immDest_iff.2
      ⟨none_notMem_usedModes_iff.2 hmodes, hw, paramMode_eq_immediate_iff.2 hdest⟩
    rw [step_of_fetch_error hr ((fetch_error_iff h0 hc).2 himm)]
    exact faultsWith_raise s .immediateDestination _
  · obtain ⟨e, he, rfl⟩ := fetch_error_of_decoder_fault hr h hf (.inr hcause)
    obtain ⟨h0, c, hc, ⟨-, rfl⟩ | ⟨-, hw, hdest, -⟩⟩ := refusedAs_of_fetch_error he
    · cases hcause
    · exact ⟨h0, c, hc, hw, paramMode_eq_immediate_iff.1 hdest⟩

end

section
/-!
SUPPORT. The decoder's answer as digits: a cell of a known class that is not refused decodes, and the
modes of what it decodes to are the cell's own mode digits (spec/30_encoding.md R53, R73 to R75).
-/
namespace Sys2Proof

variable {raw v1 v2 v3 : Int} {i : Instr} {c : OpClass}

/-- Parameters with the used modes have the mode digits of the cell (R53, R54). -/
theorem toDigits_of_usedModes {ps : List Param} {k : Nat}
    (h : ps.map (fun p => some p.mode) = usedModes raw k) :
    ps.map (fun p => p.mode.toDigit) = (List.range k).map fun j => digit raw.toNat (j + 2) := by
  have hlen : ps.length = k := by simpa [usedModes] using congrArg List.length h
  refine List.ext_getElem (by simp [hlen]) fun j hj _ => ?_
  rw [List.length_map] at hj
  have hmode : some ps[j].mode = paramMode raw (j + 1) := by
    have hget := congrArg (fun l => l[j]?) h
    simpa [usedModes, hj, hlen ▸ hj, Nat.add_comm] using hget
  simpa using Mode.ofDigit_eq_some_iff.1 hmode.symm

/-- What an instruction of class `c` decoded from `raw` is, in digits (R51 to R53, R58). -/
theorem decode_ok_digits (h0 : 0 ≤ raw) (hc : raw.toNat % 100 = c.code)
    (h : decode raw v1 v2 v3 = .ok i) :
    i.opClass = some c ∧ i.params.map Param.value = [v1, v2, v3].take c.arity ∧
      i.params.map (fun p => p.mode.toDigit) =
        (List.range c.arity).map fun j => digit raw.toNat (j + 2) := by
  obtain ⟨hi, -, hv, hm⟩ := (decode_ok_iff h0 (hc ▸ c.ofCode_code)).1 h
  exact ⟨hi, hv, toDigits_of_usedModes hm⟩

/-- The decoder refuses no other cell of a known class than R61 and R62 say. -/
theorem decode_of_accepted (h0 : 0 ≤ raw) (hc : raw.toNat % 100 = c.code)
    (hmodes : none ∉ usedModes raw c.arity)
    (hdest : ¬ (c.writes = true ∧ paramMode raw c.arity = some .immediate)) :
    ∃ i, decode raw v1 v2 v3 = .ok i := by
  cases h : decode raw v1 v2 v3 with
  | ok i => exact ⟨i, rfl⟩
  | error e =>
    obtain ⟨hbad, -⟩ | ⟨-, hw, himm, -⟩ := (decode_error_iff h0 (hc ▸ c.ofCode_code)).1 h
    · exact absurd hbad hmodes
    · exact absurd ⟨hw, himm⟩ hdest

end Sys2Proof
end

section

open Sys2Proof Sys2Proof.Machine

/-- Settles O14: the decoder's two refusals are those of `decode_error_iff`, and any other cell of
a known class decodes to the instruction `decode_ok_digits` describes. -/
theorem decoderFunction : Obligations.DecoderFunction := by
  intro raw v1 v2 v3
  refine ⟨decode_of_neg, decode_of_unknown, fun c h0 hc => ⟨fun hbad => ?_, fun hmodes => ?_⟩⟩
  · exact (decode_error_iff h0 (hc ▸ c.ofCode_code)).2
      (refusedAs_badMode_iff.2 (none_mem_usedModes_iff.2 hbad))
  · have hmodes := none_notMem_usedModes_iff.2 hmodes
    simp only [← paramMode_eq_immediate_iff]
    split
    · next hdest =>
      exact (decode_error_iff h0 (hc ▸ c.ofCode_code)).2
        (refusedAs_immDest_iff.2 ⟨hmodes, hdest⟩)
    · next hdest =>
      obtain ⟨i, h⟩ := decode_of_accepted h0 hc hmodes hdest
      obtain ⟨hi, hv, hm⟩ := decode_ok_digits h0 hc h
      exact ⟨i, h, by rw [Instr.opcodeCell_of_opClass hi, opcodeCell_mod], hv, hm⟩

end

section
/-!
SUPPORT. The step that runs a fetched instruction (spec/40_cycle_decode_resolve.md R70), and the
history after it, said once over every instruction (spec/10_state.md R22; spec/43_io.md R108;
spec/45_relbase_halt_unknown.md R119).
-/
namespace Sys2Proof.Machine

open Sys2Proof

variable {s t : State} {i : Instr}

/-- A running engine whose cells at `pc` decode runs the instruction's meaning (R70). -/
theorem step_of_fetch (hr : s.status = .running) (hi : s.fetch = .ok i) : step s = exec i s := by
  simp only [step_running hr, cycle, hi]

/-- A cell fetched as unknown is the one at `pc`, non-negative and of no known class (R60). -/
theorem fetch_unknown {raw : Int} (h : s.fetch = .ok (.unknown raw)) :
    raw = s.mem.cell s.pc ∧ 0 ≤ s.mem.cell s.pc ∧
      (s.mem.cell s.pc).toNat % 100 ∉ knownClasses := by
  obtain ⟨-, hi⟩ | ⟨h0, hnone, hi⟩ | ⟨c, -, -, hi⟩ := decode_ok h
  · cases hi
  · exact ⟨Instr.unknown.inj hi, h0, (OpClass.ofCode_eq_none_iff _).1 hnone⟩
  · cases hi

/-- The history of `t` is that of `s`, or has the one event a cycle of `i` can make: IN's delivered
value, OUT's accepted value, or the report of a skipped cell. -/
inductive RecordsAtMost (s t : State) (i : Instr) : Prop
  | kept (h : t.events = s.events)
  | input (v : Int) (h : t.events = s.events ++ [.input v]) (hi : i.opClass = some .inp)
      (hx : s.inAnswer = .value v)
  | output (v : Int) (h : t.events = s.events ++ [.output v]) (hi : i.opClass = some .out)
      (hx : s.outAnswer v = .accepted)
  | report (raw : Int) (h : t.events = s.events ++ [.report s.pc raw]) (hi : i = .unknown raw)

theorem Ran.recordsAtMost (h : Ran s i t) : RecordsAtMost s t i := by
  cases h with
  | inputStored p d v hi hx => exact .input v rfl (hi ▸ rfl) hx
  | outputTaken p v hi hx => exact .output v rfl (hi ▸ rfl) hx
  | skipped raw hi => exact .report raw rfl hi
  | _ => exact .kept rfl

end Sys2Proof.Machine
end

section

open Sys2Proof Sys2Proof.Machine

/-- Settles O18: a decoded window is a successful fetch. -/
theorem stepRunsDecoded : Obligations.StepRunsDecoded :=
  fun _ _ hr hi => step_of_fetch hr hi

/-- Settles O49: a stopped engine and a refused cell make no event, and a meaning at most one, whose
instruction tells the class of the cell at `pc`. -/
theorem atMostOneEvent : Obligations.AtMostOneEvent := by
  intro s t h
  obtain ⟨-, h⟩ | ⟨-, rfl⟩ := step_next h
  · obtain ⟨i, hi, h⟩ | ⟨e, -, rfl⟩ := cycle_next h
    · cases (exec_ran h).recordsAtMost with
      | kept h => exact .inl h
      | input v h hc hx =>
        obtain ⟨h0, hclass⟩ := (fetch_opClass_iff hi .inp).1 hc
        exact .inr ⟨h0, .inl ⟨v, h, hclass, hx⟩⟩
      | output v h hc hx =>
        obtain ⟨h0, hclass⟩ := (fetch_opClass_iff hi .out).1 hc
        exact .inr ⟨h0, .inr (.inl ⟨v, h, hclass, hx⟩)⟩
      | report raw h hraw =>
        obtain ⟨rfl, h0, hclass⟩ := fetch_unknown (hraw ▸ hi)
        exact .inr ⟨h0, .inr (.inr ⟨h, hclass⟩)⟩
    · cases e <;> exact .inl rfl
  · exact .inl rfl

end

section
/-!
SUPPORT. The cycle over raw cells and digits against the model's own operations: each digit resolver
is the one of the parameter with that mode and cell, and each class has the same effect
(spec/40_cycle_decode_resolve.md R70, R75, R78 to R81).
-/
namespace Sys2Proof.Machine

open Sys2Proof

variable {s : State} {i : Instr} {p p1 p2 p3 : Param} {c : OpClass}

/-! ## The digit cycle of a known class -/

@[simp] theorem digitArity_code (c : OpClass) : digitArity c.code = c.arity := by cases c <;> rfl

@[simp] theorem digitWrites_code (c : OpClass) : digitWrites c.code = c.writes := by
  cases c <;> rfl

/-- Go on with what a digit resolver answers, or take its fault. -/
def digitOperand (s : State) (r : Except (FaultCause × Int) Int) (k : Int → Result) : Result :=
  match r with
  | .error (f, a) => .next (s.raise f a)
  | .ok v => k v

@[simp] theorem digitOperand_ok (s : State) (v : Int) (k : Int → Result) :
    digitOperand s (.ok v) k = k v := rfl

/-- The lines of R70 after the decoder's tests, for class `c` with the parameter cells `v 1`, `v 2`,
... and the mode digits `m 1`, `m 2`, ... -/
def digitMeaning (s : State) (c : OpClass) (v : Nat → Int) (m : Nat → Nat) : Result :=
  let reads := if c.writes then c.arity - 1 else c.arity
  digitOperand s (if 1 ≤ reads then digitRead s (v 1) (m 1) else .ok 0) fun o1 =>
    digitOperand s (if 2 ≤ reads then digitRead s (v 2) (m 2) else .ok 0) fun o2 =>
      digitOperand s (if c.writes then digitDest s (v c.arity) (m c.arity) else .ok 0) fun d =>
        digitEffect s c.code c.arity o1 o2 d

theorem digitCycle_of_neg (h : s.mem.cell s.pc < 0) :
    digitCycle s = .next (s.raise .negativeInstruction (s.mem.cell s.pc)) := if_pos h

theorem digitCycle_of_unknown (h0 : 0 ≤ s.mem.cell s.pc)
    (hc : (s.mem.cell s.pc).toNat % 100 ∉ knownClasses) :
    digitCycle s = execUnknown (s.mem.cell s.pc) s := by
  simp only [digitCycle, if_neg (Int.not_lt.2 h0), if_pos hc, execUnknown]
  cases s.cfg.unknownPolicy <;> rfl

/-- On a cell of a known class the digit cycle makes R75's two tests in order, then runs the
class. -/
theorem digitCycle_of_known (h0 : 0 ≤ s.mem.cell s.pc)
    (hc : (s.mem.cell s.pc).toNat % 100 = c.code) :
    digitCycle s =
      if none ∈ usedModes (s.mem.cell s.pc) c.arity then
        .next (s.raise .invalidMode (s.mem.cell s.pc))
      else if c.writes = true ∧ paramMode (s.mem.cell s.pc) c.arity = some .immediate then
        .next (s.raise .immediateDestination (s.mem.cell s.pc))
      else digitMeaning s c (fun j => s.mem.cell (s.pc + j))
        fun j => digit (s.mem.cell s.pc).toNat (j + 1) := by
  have hbad : (∃ j ∈ List.range c.arity, 2 < digit (s.mem.cell s.pc).toNat (j + 1 + 1)) ↔
      none ∈ usedModes (s.mem.cell s.pc) c.arity := by
    rw [none_mem_usedModes_iff]
    constructor
    · rintro ⟨j, hj, h⟩
      exact ⟨j + 1, by omega, List.mem_range.1 hj, h⟩
    · rintro ⟨j, h1, hj, h⟩
      exact ⟨j - 1, List.mem_range.2 (by omega), by rwa [Nat.sub_add_cancel h1]⟩
  simp only [digitCycle, if_neg (Int.not_lt.2 h0), hc, c.code_mem, not_true_eq_false, if_false,
    digitArity_code, digitWrites_code, hbad, paramMode_eq_immediate_iff]
  rfl

/-! ## The resolvers -/

/-- The digit resolvers' sign test is the model's (R79). -/
theorem digitOperand_of_address (s : State) (a v : Int) (k : Int → Result) :
    digitOperand s (if a < 0 then .error (.invalidAddress, a) else .ok v) k =
      withValidAddress s a (k v) := by
  unfold withValidAddress
  split <;> rfl

/-- A read through an address tests its sign first (R32). -/
theorem withOperand_of_address {a : Int} (hr : resolveRead s p = memRead s.mem a)
    (k : Int → Result) :
    withOperand s p k = withValidAddress s a (k (s.mem.cell a.toNat)) := by
  by_cases ha : a < 0 <;> simp [withOperand, hr, memRead, withValidAddress, ha]

/-- `ResolveRead` by digit is `ResolveRead` by mode (R78). -/
theorem digitOperand_read (s : State) (p : Param) (k : Int → Result) :
    digitOperand s (digitRead s p.value p.mode.toDigit) k = withOperand s p k := by
  obtain ⟨m, v⟩ := p
  cases m with
  | immediate => rfl
  | position => exact (digitOperand_of_address ..).trans (withOperand_of_address rfl k).symm
  | relative => exact (digitOperand_of_address ..).trans (withOperand_of_address rfl k).symm

/-- `ResolveDest` by digit is the model's address and its sign test (R79). -/
theorem digitOperand_dest (s : State) (hp : p.isDest = true) :
    ∃ a, destAddress s p = some a ∧ ∀ k, digitOperand s (digitDest s p.value p.mode.toDigit) k =
      withValidAddress s a (k a) := by
  obtain ⟨m, v⟩ := p
  cases m with
  | immediate => cases hp
  | position => exact ⟨v, rfl, digitOperand_of_address s v v⟩
  | relative => exact ⟨v + s.rb, rfl, digitOperand_of_address s _ _⟩

/-- After the sign test only valid addresses matter. -/
theorem withValidAddress_congr {a : Int} {k k' : Result} (h : 0 ≤ a → k = k') :
    withValidAddress s a k = withValidAddress s a k' := by
  simp only [withValidAddress]
  split
  · rfl
  · exact h (by omega)

/-! ## The effects -/

theorem digitStore_of_unfit {u : State} {n : Nat} {d v : Int} (k : Nat)
    (hn : n = 1 ∨ n = 2 ∨ n = 3) (hf : s.fits v = false) :
    digitStore s u n d v k = .next (s.raise .arithmeticOverflow n) :=
  if_pos ⟨hn, by simp [hf]⟩

theorem digitStore_of_fits {u : State} {n : Nat} {d v : Int} (k : Nat)
    (h : s.fits v = true ∨ ¬ (n = 1 ∨ n = 2 ∨ n = 3)) :
    digitStore s u n d v k =
      if s.allowsWrite d.toNat then .next ((u.setMem (s.mem.put d.toNat v)).jumpTo (s.pc + k + 1))
      else .refused (.memCapExceeded d.toNat) :=
  if_neg fun hn => h.elim hn.2 (absurd hn.1)

/-- The store of a result that fits or needs no test is the model's. -/
theorem digitStore_eq_storeNext {n : Nat} {d v : Int} (k : Nat)
    (h : s.fits v = true ∨ ¬ (n = 1 ∨ n = 2 ∨ n = 3)) (h0 : 0 ≤ d) :
    digitStore s s n d v k = storeNext s d v (k + 1) := by
  rw [digitStore_of_fits k h, storeNext, memWrite_of_nonneg _ v h0]
  rfl

/-- The store of ADD and MUL: the test for R147's overflow, then the write. -/
theorem digitStore_eq_withFit {d : Int} (k : Nat) (hc : c = .add ∨ c = .mul) (h0 : 0 ≤ d)
    (v : Int) : digitStore s s c.code d v k = withFit s c v (storeNext s d v (k + 1)) := by
  cases hf : s.fits v with
  | true => rw [withFit_of_fits _ hf, digitStore_eq_storeNext k (.inl hf) h0]
  | false =>
    have hn : c.code = 1 ∨ c.code = 2 ∨ c.code = 3 := by obtain rfl | rfl := hc <;> decide
    rw [digitStore_of_unfit k hn hf, withFit, hf, if_neg Bool.false_ne_true]

@[simp] theorem sawInput_allowsWrite (q : Option Port) (a : Nat) :
    (s.sawInput q).allowsWrite a = s.allowsWrite a := rfl

theorem digitEffect_inp (s : State) (o1 o2 d : Int) :
    digitEffect s 3 1 o1 o2 d =
      if !s.allowsWrite d.toNat && s.stores s.inAnswer then .refused (.memCapExceeded d.toNat)
      else .next (s.received d.toNat s.inAnswer) := by
  simp only [digitEffect, Nat.reduceEqDiff, reduceIte]
  cases s.inAnswer with
  | notYet => simp only [State.stores, Bool.and_false]; rfl
  | fail => simp only [State.stores, Bool.and_false]; rfl
  | value v =>
    cases hf : s.fits v with
    | false =>
      simp only [State.stores, State.received_of_unfit _ hf, hf, Bool.and_false]
      exact digitStore_of_unfit 1 (by decide) hf
    | true =>
      simp only [State.stores, State.received_of_fits _ hf, hf, Bool.and_true]
      refine (digitStore_of_fits (s := s.sawInput none) 1 (.inl hf)).trans ?_
      rw [sawInput_allowsWrite]
      cases s.allowsWrite d.toNat <;> rfl

theorem digitEffect_lt {o1 o2 d : Int} (h0 : 0 ≤ d) :
    digitEffect s 7 3 o1 o2 d = storeNext s d (aluLt o1 o2) 4 := by
  simp only [aluLt, truthCell, decide_eq_true_eq]
  exact digitStore_eq_storeNext (n := 7) 3 (.inr (by decide)) h0

theorem digitEffect_eq {o1 o2 d : Int} (h0 : 0 ≤ d) :
    digitEffect s 8 3 o1 o2 d = storeNext s d (aluEq o1 o2) 4 := by
  simp only [aluEq, truthCell, decide_eq_true_eq]
  exact digitStore_eq_storeNext (n := 8) 3 (.inr (by decide)) h0

theorem digitEffect_out (s : State) (o1 o2 d : Int) :
    digitEffect s 4 1 o1 o2 d = .next (s.offered o1 (s.outAnswer o1)) := by
  simp only [digitEffect]
  cases s.outAnswer o1 <;> rfl

theorem digitEffect_jt (s : State) (o1 o2 d : Int) :
    digitEffect s 5 2 o1 o2 d = branch s (aluNz o1) o2 := by
  by_cases h : o1 = 0 <;> simp [digitEffect, branch, aluNz, h] <;> rfl

theorem digitEffect_jf (s : State) (o1 o2 d : Int) :
    digitEffect s 6 2 o1 o2 d = branch s (!aluNz o1) o2 := by
  by_cases h : o1 = 0 <;> simp [digitEffect, branch, aluNz, h] <;> rfl

theorem digitEffect_arb (s : State) (o1 o2 d : Int) :
    digitEffect s 9 1 o1 o2 d =
      withFit s .arb (s.rb + o1) (.next ((s.setRb (s.rb + o1)).advance 2)) := rfl

/-! ## The formats of R57 -/

section

variable {v : Nat → Int} {m : Nat → Nat}

/-- Format RRW by digits: the destination's address is resolved last in both. -/
theorem digitMeaning_rrw {k : Int → Int → Int → Result} (ha : c.arity = 3) (hw : c.writes = true)
    (hp : p3.isDest = true) (hv : [p1.value, p2.value, p3.value] = [v 1, v 2, v 3])
    (hm : [p1.mode.toDigit, p2.mode.toDigit, p3.mode.toDigit] = [m 1, m 2, m 3])
    (hk : ∀ o1 o2 d, 0 ≤ d → digitEffect s c.code 3 o1 o2 d = k o1 o2 d) :
    digitMeaning s c v m = withRRW s i p1 p2 p3 k := by
  simp only [List.cons.injEq, and_true] at hv hm
  obtain ⟨hv1, hv2, hv3⟩ := hv
  obtain ⟨hm1, hm2, hm3⟩ := hm
  obtain ⟨d, hd, hdest⟩ := digitOperand_dest s hp
  have hvalid o1 o2 := withValidAddress_congr (s := s) (hk o1 o2 d)
  simp [digitMeaning, ha, hw, ← hv1, ← hv2, ← hv3, ← hm1, ← hm2, ← hm3, digitOperand_read, hdest,
    hvalid, withRRW, withDest, hd]

/-- Format RR by digits. -/
theorem digitMeaning_rr {k : Int → Int → Result} (ha : c.arity = 2) (hw : c.writes = false)
    (hv : [p1.value, p2.value] = [v 1, v 2]) (hm : [p1.mode.toDigit, p2.mode.toDigit] = [m 1, m 2])
    (hk : ∀ o1 o2, digitEffect s c.code 2 o1 o2 0 = k o1 o2) :
    digitMeaning s c v m = withOperand s p1 fun o1 => withOperand s p2 fun o2 => k o1 o2 := by
  simp only [List.cons.injEq, and_true] at hv hm
  obtain ⟨hv1, hv2⟩ := hv
  obtain ⟨hm1, hm2⟩ := hm
  simp [digitMeaning, ha, hw, ← hv1, ← hv2, ← hm1, ← hm2, digitOperand_read, hk]

/-- Format R by digits. -/
theorem digitMeaning_r {k : Int → Result} (ha : c.arity = 1) (hw : c.writes = false)
    (hv : [p.value] = [v 1]) (hm : [p.mode.toDigit] = [m 1])
    (hk : ∀ o1, digitEffect s c.code 1 o1 0 0 = k o1) :
    digitMeaning s c v m = withOperand s p k := by
  simp only [List.cons.injEq, and_true] at hv hm
  simp [digitMeaning, ha, hw, ← hv, ← hm, digitOperand_read, hk]

/-- Format W by digits. -/
theorem digitMeaning_w {k : Int → Result} (ha : c.arity = 1) (hw : c.writes = true)
    (hp : p.isDest = true) (hv : [p.value] = [v 1]) (hm : [p.mode.toDigit] = [m 1])
    (hk : ∀ d, digitEffect s c.code 1 0 0 d = k d) :
    digitMeaning s c v m = withDest s i p fun d => withValidAddress s d (k d) := by
  simp only [List.cons.injEq, and_true] at hv hm
  obtain ⟨d, hd, hdest⟩ := digitOperand_dest s hp
  simp [digitMeaning, ha, hw, ← hv, ← hm, hdest, withDest, hd, hk]

/-- The meaning of a well-formed instruction is that of its class on its cells and digits. -/
theorem digitMeaning_eq_exec (hi : i.opClass = some c) (hwf : i.wf = true)
    (hv : i.params.map Param.value = [v 1, v 2, v 3].take c.arity)
    (hm : i.params.map (fun p => p.mode.toDigit) = (List.range c.arity).map fun j => m (j + 1)) :
    digitMeaning s c v m = exec i s := by
  cases i with
  | add p1 p2 p3 =>
    cases hi
    exact digitMeaning_rrw rfl rfl hwf hv hm fun _ _ _ h0 =>
      digitStore_eq_withFit 3 (.inl rfl) h0 _
  | mul p1 p2 p3 =>
    cases hi
    exact digitMeaning_rrw rfl rfl hwf hv hm fun _ _ _ h0 =>
      digitStore_eq_withFit 3 (.inr rfl) h0 _
  | lt p1 p2 p3 => cases hi; exact digitMeaning_rrw rfl rfl hwf hv hm fun _ _ _ => digitEffect_lt
  | eq p1 p2 p3 => cases hi; exact digitMeaning_rrw rfl rfl hwf hv hm fun _ _ _ => digitEffect_eq
  | inp p => cases hi; exact digitMeaning_w rfl rfl hwf hv hm (digitEffect_inp s 0 0)
  | out p => cases hi; exact digitMeaning_r rfl rfl hv hm fun o1 => digitEffect_out s o1 0 0
  | jt p1 p2 => cases hi; exact digitMeaning_rr rfl rfl hv hm fun o1 o2 => digitEffect_jt s o1 o2 0
  | jf p1 p2 => cases hi; exact digitMeaning_rr rfl rfl hv hm fun o1 o2 => digitEffect_jf s o1 o2 0
  | arb p => cases hi; exact digitMeaning_r rfl rfl hv hm fun o1 => digitEffect_arb s o1 0 0
  | halt => cases hi; rfl
  | unknown raw | negative raw => cases hi

end

end Sys2Proof.Machine
end

section

open Sys2Proof Sys2Proof.Machine

/-- Settles O20, by the kinds of cell at `pc`: negative, unknown, refused, or decoded. -/
theorem stepIsDigitCycle : Obligations.StepIsDigitCycle := by
  intro s hr
  cases hf : s.fetch with
  | error e =>
    obtain ⟨h0, c, hc, hrefused⟩ := refusedAs_of_fetch_error hf
    rw [step_of_fetch_error hr hf, digitCycle_of_known h0 hc]
    obtain ⟨hbad, rfl⟩ | ⟨hmodes, hdest, himm, rfl⟩ := hrefused
    · rw [if_pos hbad]; rfl
    · rw [if_neg hmodes, if_pos ⟨hdest, himm⟩]; rfl
  | ok i =>
    rw [step_of_fetch hr hf]
    obtain ⟨hneg, rfl⟩ | ⟨h0, hnone, rfl⟩ | ⟨c, h0, hc, -⟩ := decode_ok hf
    · exact (digitCycle_of_neg hneg).symm
    · exact (digitCycle_of_unknown h0 ((OpClass.ofCode_eq_none_iff _).1 hnone)).symm
    · have hc := OpClass.code_of_ofCode hc
      obtain ⟨hclass, hv, hm⟩ := decode_ok_digits h0 hc hf
      have haccepted (e : DecodeError) : ¬ RefusedAs (s.mem.cell s.pc) c.writes c.arity e :=
        fun he => by simpa [hf] using (fetch_error_iff h0 hc).2 he
      have hmodes : none ∉ usedModes (s.mem.cell s.pc) c.arity :=
        fun hbad => haccepted _ (refusedAs_badMode_iff.2 hbad)
      rw [digitCycle_of_known h0 hc, if_neg hmodes,
        if_neg fun hdest => haccepted _ (refusedAs_immDest_iff.2 ⟨hmodes, hdest⟩)]
      exact (digitMeaning_eq_exec hclass (wf_of_decode hf) hv hm).symm

end

section
/-!
SUPPORT. The completion of the three-parameter instructions whose operands resolve
(spec/40_cycle_decode_resolve.md R80, R81), and the range of a finite build
(spec/00_scope.md R5, spec/41_arithmetic.md R92), kept by every instruction.
-/
namespace Sys2Proof.Machine

open Sys2Proof

variable {s t : State} {i : Instr} {p1 p2 p3 : Param}

/-! ## Completion -/

/-- Format RRW on resolved parameters completes when its effect on the operand values comes to the
one write. -/
theorem withRRW_stored {k : Int → Int → Int → Result} {v : Int} (hwf : s.mem.wf = true)
    (h1 : readable s p1 = true) (h2 : readable s p2 = true) (h3 : writable s p3 = true)
    (ha : s.allowsWrite (destCell s p3) = true)
    (hk : ∀ d, k (operandValue s p1) (operandValue s p2) d = storeNext s d v 4) :
    ∃ t, withRRW s i p1 p2 p3 k = .next t ∧ Stored s t (destCell s p3) v 4 := by
  obtain ⟨d, h0, hd, hrun⟩ := withRRW_of_resolved (i := i) k h1 h2 h3
  rw [← hd] at ha ⊢
  exact ⟨_, by rw [hrun, hk, storeNext_of_allowed v 4 h0 ha], stored_put hwf d.toNat v 4⟩

/-! ## Range -/

/-- A truth value fits every legal cell width (R5, R97), so no comparison overflows. -/
theorem fits_of_truth {v : Int} (hcfg : s.cfg.wf = true) (hv : v = 0 ∨ v = 1) :
    s.fits v = true := by
  unfold Config.wf at hcfg
  unfold State.fits
  cases hb : s.cfg.cellBits with
  | none => rfl
  | some n =>
    simp only [hb, decide_eq_true_eq] at hcfg
    have hn : n - 1 ≠ 0 := by omega
    have hpow : (1 : Int) < 2 ^ (n - 1) := by exact_mod_cast Nat.one_lt_two_pow hn
    simp only [Bool.and_eq_true, decide_eq_true_eq]
    omega

/-- Writing a value in range keeps every cell in range. -/
theorem fits_cell_put {v : Int} (hwf : s.mem.wf = true) (hs : ∀ b, s.fits (s.mem.cell b) = true)
    (hv : s.fits v = true) (a b : Nat) : s.fits ((s.mem.put a v).cell b) = true := by
  by_cases hb : b = a
  · rw [hb, Memory.cell_put_same hwf a v]
    exact hv
  · rw [Memory.cell_put_other _ hb v]
    exact hs b

/-- The values written to a cell or to `rb` have passed R147's test or are truth values; the other
ends of a cycle change neither. -/
theorem Ran.inRange (h : Ran s i t) (hs : InRange s) (hwf : s.mem.wf = true) : InRange t := by
  obtain ⟨hcfg, hrb, hcells⟩ := hs
  cases h with
  | stored _ _ d v _ _ _ _ _ _ _ hv =>
    exact ⟨hcfg, hrb, fits_cell_put hwf hcells (hv.elim id (fits_of_truth hcfg)) d.toNat⟩
  | inputStored _ d v _ _ _ _ _ hv => exact ⟨hcfg, hrb, fits_cell_put hwf hcells hv d.toNat⟩
  | rebased _ v _ _ hv => exact ⟨hcfg, hv, hcells⟩
  | _ => exact ⟨hcfg, hrb, hcells⟩

end Sys2Proof.Machine
end

section

open Sys2Proof Sys2Proof.Machine

/-- Settles O52: a stopped engine and a refused cell change neither store nor `rb`, and every
instruction keeps them in range. -/
theorem stepKeepsInRange : Obligations.StepKeepsInRange := by
  intro s t hs hwf h
  obtain ⟨-, h⟩ | ⟨-, rfl⟩ := step_next h
  · obtain ⟨i, -, h⟩ | ⟨e, -, rfl⟩ := cycle_next h
    · exact (exec_ran h).inRange hs hwf
    · cases e <;> exact hs
  · exact hs

/-- Settles O21: the sum fits, so ADD's effect is the one write. -/
theorem addStoresSum : Obligations.AddStoresSum :=
  fun _ _ _ _ hwf h1 h2 h3 hfit ha => withRRW_stored hwf h1 h2 h3 ha fun _ => withFit_of_fits _ hfit

/-- Settles O22: the product fits, so MUL's effect is the one write. -/
theorem mulStoresProduct : Obligations.MulStoresProduct :=
  fun _ _ _ _ hwf h1 h2 h3 hfit ha => withRRW_stored hwf h1 h2 h3 ha fun _ => withFit_of_fits _ hfit

end

section
/-!
SUPPORT. The comparisons' cell, in the form the statements of R95 and R96 write it
(spec/42_compare.md R97).
-/
namespace Sys2Proof.Machine

theorem truthCell_decide (p : Prop) [Decidable p] : truthCell (decide p) = if p then 1 else 0 := by
  by_cases h : p <;> simp [truthCell, h]

theorem aluLt_eq_ite (a b : Int) : aluLt a b = if a < b then 1 else 0 := truthCell_decide (a < b)

theorem aluEq_eq_ite (a b : Int) : aluEq a b = if a = b then 1 else 0 := truthCell_decide (a = b)

end Sys2Proof.Machine
end

section

open Sys2Proof Sys2Proof.Machine

/-- Settles O23: LT's effect is the one write of its truth value, which no overflow test guards. -/
theorem ltStoresTruth : Obligations.LtStoresTruth :=
  fun p1 p2 _ s hwf h1 h2 h3 ha => withRRW_stored hwf h1 h2 h3 ha fun d =>
    congrArg (storeNext s d · 4) (aluLt_eq_ite (operandValue s p1) (operandValue s p2))

/-- Settles O24: EQ's effect is the one write of its truth value, which no overflow test guards. -/
theorem eqStoresTruth : Obligations.EqStoresTruth :=
  fun p1 p2 _ s hwf h1 h2 h3 ha => withRRW_stored hwf h1 h2 h3 ha fun d =>
    congrArg (storeNext s d · 4) (aluEq_eq_ite (operandValue s p1) (operandValue s p2))

end

section
/-!
SUPPORT. IN and OUT by the answer the port gives (spec/43_io.md R102, R105).
-/
namespace Sys2Proof.Machine

open Sys2Proof

variable {s : State} {p : Param}

/-- IN with a valid destination meets every answer that is not a store at or beyond `MEM_CAP` with
that answer's effect (R102, R35). -/
theorem exec_inp_of_answer {a : InAnswer} (hw : writable s p = true) (hx : s.inAnswer = a)
    (ha : s.allowsWrite (destCell s p) = true ∨ s.stores a = false) :
    exec (.inp p) s = .next (s.received (destCell s p) a) := by
  subst hx
  exact execIn_of_writable hw ha

/-- OUT of a readable operand meets every answer with that answer's effect (R105). -/
theorem exec_out_of_answer {a : OutAnswer} (hr : readable s p = true)
    (hx : s.outAnswer (operandValue s p) = a) :
    exec (.out p) s = .next (s.offered (operandValue s p) a) := by
  subst hx
  exact execOut_of_readable hr

end Sys2Proof.Machine
end

section

open Sys2Proof Sys2Proof.Machine

/-- Settles O25: the delivered value fits, so IN ends in the one write of a cycle, made after the
look at the port and the record of the transaction. -/
theorem inStoresDelivered : Obligations.InStoresDelivered := by
  intro p1 v s hwf hw hx hfit ha
  rw [exec_inp_of_answer hw hx (.inl ha), State.received_of_fits _ hfit]
  exact ⟨_, rfl, stored_put (s := (s.sawInput none).record (.input v)) hwf (destCell s p1) v 2⟩

/-- Settles O26: the effect of an accepted OUT is `offered`'s completion. -/
theorem outHandsOver : Obligations.OutHandsOver :=
  fun _ _ hr hx => exec_out_of_answer hr hx

/-- Settles O27: the effect of "not yet" is the look at the port; IN stores nothing, so no
`MEM_CAP` matters. -/
theorem portsHold : Obligations.PortsHold :=
  fun _ _ => ⟨fun hw hx => exec_inp_of_answer hw hx (.inr rfl),
    fun hr hx => exec_out_of_answer hr hx⟩

/-- Settles O28: the effect of `Fail` is the fault, raised after the look at the port; IN stores
nothing, so no `MEM_CAP` matters. -/
theorem portFailuresFault : Obligations.PortFailuresFault := by
  intro p1 s
  constructor
  · intro hw hx
    rw [exec_inp_of_answer hw hx (.inr rfl)]
    exact faultsWith_raise _ .portFailure 0
  · intro hr hx
    rw [exec_out_of_answer hr hx]
    exact faultsWith_raise _ .portFailure 1

end

section
/-!
SUPPORT. JT and JF by the way their operands resolve and by the end of the jump
(spec/44_jumps.md R110 to R113).
-/
namespace Sys2Proof.Machine

open Sys2Proof

variable {s : State} {i : Instr} {p p1 p2 : Param}

/-! ## The shared operations -/

@[simp] theorem aluNz_eq_true_iff {v : Int} : aluNz v = true ↔ v ≠ 0 := decide_eq_true_iff

@[simp] theorem aluNz_eq_false_iff {v : Int} : aluNz v = false ↔ v = 0 :=
  decide_eq_false_iff_not.trans Decidable.not_not

theorem not_aluNz_eq_true {v : Int} (h : v = 0) : (!aluNz v) = true :=
  congrArg (! ·) (aluNz_eq_false_iff.2 h)

theorem not_aluNz_eq_false {v : Int} (h : v ≠ 0) : (!aluNz v) = false :=
  congrArg (! ·) (aluNz_eq_true_iff.2 h)

theorem withOperand_of_error {a : Int} (k : Int → Result) (h : resolveRead s p = .error a) :
    withOperand s p k = .next (s.raise .invalidAddress a) := by
  simp only [withOperand, h]

theorem withValidAddress_of_neg {a : Int} (k : Result) (h : a < 0) :
    withValidAddress s a k = .next (s.raise .invalidAddress a) := if_pos h

theorem branch_not_taken {taken : Bool} (a : Int) (h : taken = false) :
    branch s taken a = .next (s.advance 3) := by
  subst h; rfl

theorem branch_taken {taken : Bool} (a : Int) (h : taken = true) :
    branch s taken a = withValidAddress s a (.next (s.jumpTo a.toNat)) := by
  subst h; rfl

theorem branch_taken_of_nonneg {taken : Bool} {a : Int} (h : taken = true) (h0 : 0 ≤ a) :
    branch s taken a = .next (s.jumpTo a.toNat) := by
  rw [branch_taken a h, withValidAddress_of_nonneg _ h0]

theorem branch_taken_of_neg {taken : Bool} {a : Int} (h : taken = true) (hneg : a < 0) :
    branch s taken a = .next (s.raise .invalidAddress a) := by
  rw [branch_taken a h, withValidAddress_of_neg _ hneg]

/-! ## Format RR -/

theorem withOperands_of_readable (k : Int → Int → Result) (h1 : readable s p1 = true)
    (h2 : readable s p2 = true) :
    (withOperand s p1 fun o1 => withOperand s p2 fun o2 => k o1 o2) =
      k (operandValue s p1) (operandValue s p2) := by
  rw [withOperand_of_readable _ h1, withOperand_of_readable _ h2]

/-- JT with resolved operands is its branch on `nz` (R110, R125). -/
theorem exec_jt_of_readable (h1 : readable s p1 = true) (h2 : readable s p2 = true) :
    exec (.jt p1 p2) s = branch s (aluNz (operandValue s p1)) (operandValue s p2) :=
  withOperands_of_readable (fun o1 o2 => branch s (aluNz o1) o2) h1 h2

/-- JF with resolved operands is its branch on the negation of `nz` (R111, R125). -/
theorem exec_jf_of_readable (h1 : readable s p1 = true) (h2 : readable s p2 = true) :
    exec (.jf p1 p2) s = branch s (!aluNz (operandValue s p1)) (operandValue s p2) :=
  withOperands_of_readable (fun o1 o2 => branch s (!aluNz o1) o2) h1 h2

/-- Both jumps resolve operand 1 and then operand 2, before either looks at a value (R112). -/
theorem exec_jump_resolves_both (hi : i ∈ [Instr.jt p1 p2, .jf p1 p2]) :
    ∃ k : Int → Int → Result,
      exec i s = withOperand s p1 fun o1 => withOperand s p2 fun o2 => k o1 o2 := by
  simp only [List.mem_cons, List.not_mem_nil, or_false] at hi
  obtain rfl | rfl := hi
  · exact ⟨fun o1 o2 => branch s (aluNz o1) o2, rfl⟩
  · exact ⟨fun o1 o2 => branch s (!aluNz o1) o2, rfl⟩

end Sys2Proof.Machine
end

section

open Sys2Proof Sys2Proof.Machine

/-- Settles O30: JT is its branch, which is taken exactly when operand 1 is not 0. -/
theorem jtBranches : Obligations.JtBranches := by
  intro p1 p2 s h1 h2
  rw [exec_jt_of_readable h1 h2]
  exact ⟨fun hnz h0 => branch_taken_of_nonneg (aluNz_eq_true_iff.2 hnz) h0,
    fun hz => branch_not_taken _ (aluNz_eq_false_iff.2 hz)⟩

/-- Settles O31: JF is its branch, which is taken exactly when operand 1 is 0. -/
theorem jfBranches : Obligations.JfBranches := by
  intro p1 p2 s h1 h2
  rw [exec_jf_of_readable h1 h2]
  exact ⟨fun hz h0 => branch_taken_of_nonneg (not_aluNz_eq_true hz) h0,
    fun hnz => branch_not_taken _ (not_aluNz_eq_false hnz)⟩

/-- Settles O41: the faults come from the resolution that both jumps share, which never asks
whether the jump is taken. -/
theorem jumpResolvesBothOperands : Obligations.JumpResolvesBothOperands := by
  intro p1 p2 s i a hi
  obtain ⟨k, hk⟩ := exec_jump_resolves_both (s := s) hi
  rw [hk]
  constructor
  · intro he
    rw [withOperand_of_error _ he]
    exact faultsWith_raise s .invalidAddress a
  · intro h1 he
    rw [withOperand_of_readable _ h1, withOperand_of_error _ he]
    exact faultsWith_raise s .invalidAddress a

/-- Settles O42: the branch is taken in both cases, and its sign test faults. -/
theorem negativeTargetFaults : Obligations.NegativeTargetFaults := by
  intro p1 p2 s h1 h2 hneg
  rw [exec_jt_of_readable h1 h2, exec_jf_of_readable h1 h2]
  constructor
  · intro hnz
    rw [branch_taken_of_neg (aluNz_eq_true_iff.2 hnz) hneg]
    exact faultsWith_raise s .invalidAddress _
  · intro hz
    rw [branch_taken_of_neg (not_aluNz_eq_true hz) hneg]
    exact faultsWith_raise s .invalidAddress _

end

section
/-!
SUPPORT. HALT and the cell of no known class from the cell at `pc` to the next state
(spec/45_relbase_halt_unknown.md R116 to R118; spec/30_encoding.md R55, R60).
-/
namespace Sys2Proof.Machine

open Sys2Proof

variable {s : State}

/-- A non-negative cell of class 99 is fetched as HALT, whatever its higher digits (R55). -/
theorem fetch_of_halt (h0 : 0 ≤ s.mem.cell s.pc) (h99 : (s.mem.cell s.pc).toNat % 100 = 99) :
    s.fetch = .ok .halt :=
  (decode_ok_iff h0 (ofCode_eq_some_iff (c := .halt).2 h99)).2 ⟨rfl, rfl, rfl, rfl⟩

/-- A non-negative cell of no known class is fetched as unknown (R60). -/
theorem fetch_of_unknown (h0 : 0 ≤ s.mem.cell s.pc)
    (h : (s.mem.cell s.pc).toNat % 100 ∉ knownClasses) :
    s.fetch = .ok (.unknown (s.mem.cell s.pc)) := decode_of_unknown h0 h

theorem execUnknown_of_skip (raw : Int) (h : s.cfg.unknownPolicy = .skip) :
    execUnknown raw s = .next ((s.record (.report s.pc raw)).advance 1) := by
  simp only [execUnknown, h]

theorem execUnknown_of_fault (raw : Int) (h : s.cfg.unknownPolicy = .fault) :
    execUnknown raw s = .next (s.raise .unknownOpcode raw) := by
  simp only [execUnknown, h]

end Sys2Proof.Machine
end

section
/-!
SUPPORT. Two machines that differ in `UNKNOWN_OPCODE_POLICY` alone (spec/00_scope.md R5): only the
meaning of an unknown cell reads it, so every other instruction answers alike in both
(spec/45_relbase_halt_unknown.md R118).
-/
namespace Sys2Proof.Machine

open Sys2Proof

variable {s : State} {u : UnknownPolicy} {i : Instr}

/-! ## What does not read the policy -/

@[simp] theorem setPolicy_mem : (s.setPolicy u).mem = s.mem := rfl
@[simp] theorem setPolicy_status : (s.setPolicy u).status = s.status := rfl
@[simp] theorem setPolicy_fetch : (s.setPolicy u).fetch = s.fetch := rfl
@[simp] theorem setPolicy_inAnswer : (s.setPolicy u).inAnswer = s.inAnswer := rfl
@[simp] theorem setPolicy_fits (v : Int) : (s.setPolicy u).fits v = s.fits v := rfl
@[simp] theorem setPolicy_allowsWrite (a : Nat) :
    (s.setPolicy u).allowsWrite a = s.allowsWrite a := rfl
@[simp] theorem setPolicy_stores (a : InAnswer) : (s.setPolicy u).stores a = s.stores a := by
  cases a <;> rfl

/-! ## The shared operations -/

theorem sameButPolicy_next (t : State) : SameButPolicy u (.next t) (.next (t.setPolicy u)) := rfl

theorem checksAlike_setPolicy (s : State) (u : UnknownPolicy) :
    ChecksAlike (SameButPolicy u) s (s.setPolicy u) where
  rb := rfl
  fits _ := rfl
  raised c a := sameButPolicy_next (s.raise c a)

theorem sameButPolicy_storeNext (d v : Int) (n : Nat) :
    SameButPolicy u (storeNext s d v n) (storeNext (s.setPolicy u) d v n) := by
  by_cases hd : d < 0
  · simp only [storeNext, memWrite_of_neg _ v hd]
    exact sameButPolicy_next (s.raise .invalidAddress d)
  · simp only [storeNext, memWrite_of_nonneg _ v (Int.not_lt.1 hd), setPolicy_mem]
    rw [setPolicy_allowsWrite]
    split
    · exact sameButPolicy_next ((s.setMem (s.mem.put d.toNat v)).advance n)
    · rfl

theorem sameButPolicy_branch (b : Bool) (a : Int) :
    SameButPolicy u (branch s b a) (branch (s.setPolicy u) b a) := by
  cases b with
  | false => exact sameButPolicy_next (s.advance 3)
  | true => exact (checksAlike_setPolicy s u).withValidAddress a (sameButPolicy_next (s.jumpTo _))

theorem sameButPolicy_received (d : Nat) (a : InAnswer) :
    SameButPolicy u (.next (s.received d a)) (.next ((s.setPolicy u).received d a)) := by
  cases a with
  | value v =>
    rw [State.received, State.received, setPolicy_fits]
    split
    · exact sameButPolicy_next ((((s.sawInput none).record _).setMem (s.mem.put d v)).advance 2)
    · exact sameButPolicy_next ((s.sawInput none).raise .arithmeticOverflow _)
  | notYet => exact sameButPolicy_next (s.sawInput (some .input))
  | fail => exact sameButPolicy_next ((s.sawInput none).raise .portFailure 0)

theorem sameButPolicy_offered (v : Int) (a : OutAnswer) :
    SameButPolicy u (.next (s.offered v a)) (.next ((s.setPolicy u).offered v a)) := by
  cases a with
  | accepted => exact sameButPolicy_next (s.offered v .accepted)
  | notYet => exact sameButPolicy_next (s.offered v .notYet)
  | fail => exact sameButPolicy_next (s.offered v .fail)

/-! ## Every instruction but an unknown cell -/

theorem sameButPolicy_execIn (p : Param) :
    SameButPolicy u (execIn p s) (execIn p (s.setPolicy u)) := by
  have hc := checksAlike_setPolicy s u
  refine hc.withDest fun d => hc.withValidAddress d ?_
  simp only [setPolicy_inAnswer, setPolicy_stores, setPolicy_allowsWrite]
  split
  · rfl
  · exact sameButPolicy_received d.toNat s.inAnswer

theorem sameButPolicy_exec (hi : ∀ raw, i ≠ .unknown raw) :
    SameButPolicy u (exec i s) (exec i (s.setPolicy u)) := by
  have hc := checksAlike_setPolicy s u
  cases i with
  | add p1 p2 p3 | mul p1 p2 p3 =>
    exact hc.withRRW rfl rfl fun _ _ d => hc.withFit _ _ (sameButPolicy_storeNext d _ _)
  | lt p1 p2 p3 | eq p1 p2 p3 =>
    exact hc.withRRW rfl rfl fun _ _ d => sameButPolicy_storeNext d _ _
  | inp p => exact sameButPolicy_execIn p
  | out p => exact hc.withOperand rfl fun v => sameButPolicy_offered v _
  | jt p1 p2 | jf p1 p2 =>
    exact hc.withOperand rfl fun _ => hc.withOperand rfl fun a => sameButPolicy_branch _ a
  | arb p =>
    exact hc.withOperand rfl fun v =>
      hc.withFit _ _ (sameButPolicy_next ((s.setRb (s.rb + v)).advance 2))
  | halt => exact sameButPolicy_next s.halt
  | unknown raw => exact absurd rfl (hi raw)
  | negative raw => exact hc.raised _ raw

/-- The two policies give the same cycle wherever no unknown cell is fetched. -/
theorem sameButPolicy_cycle (h : ∀ raw, s.fetch ≠ .ok (.unknown raw)) :
    SameButPolicy u (cycle s) (cycle (s.setPolicy u)) := by
  simp only [cycle, setPolicy_fetch]
  cases hf : s.fetch with
  | ok i => exact sameButPolicy_exec fun raw hi => h raw (hi ▸ hf)
  | error e =>
    cases e with
    | badMode raw => exact sameButPolicy_next (s.raise .invalidMode raw)
    | immDest raw => exact sameButPolicy_next (s.raise .immediateDestination raw)

end Sys2Proof.Machine
end

section

open Sys2Proof Sys2Proof.Machine

/-- Settles O32: the operand resolves before `rb` is written, and the sum passes R147's test. -/
theorem arbAddsToBase : Obligations.ArbAddsToBase :=
  fun _ _ hr hfit => (withOperand_of_readable _ hr).trans (withFit_of_fits _ hfit)

/-- Settles O33: the cell is fetched as HALT, whose meaning asks nothing. -/
theorem haltStops : Obligations.HaltStops :=
  ⟨fun _ => rfl, fun _ hr h0 h99 => step_of_fetch hr (fetch_of_halt h0 h99)⟩

/-- Settles O34: the cell is fetched as unknown, which policy SKIP reports and passes. -/
theorem unknownIsSkipped : Obligations.UnknownIsSkipped :=
  ⟨fun raw _ hskip => execUnknown_of_skip raw hskip, fun _ hr hskip h0 hclass =>
    (step_of_fetch hr (fetch_of_unknown h0 hclass)).trans (execUnknown_of_skip _ hskip)⟩

/-- Settles O35: the cell is fetched as unknown, which policy FAULT faults; any other fetch is
answered without a look at the policy. -/
theorem unknownFaultPolicy : Obligations.UnknownFaultPolicy := by
  constructor
  · intro s hr hfault h0 hclass
    rw [(step_of_fetch hr (fetch_of_unknown h0 hclass)).trans (execUnknown_of_fault _ hfault)]
    exact faultsWith_raise s .unknownOpcode _
  · intro s u hcell
    have hknown (raw : Int) : s.fetch ≠ .ok (.unknown raw) := fun hf =>
      let ⟨_, h0, hclass⟩ := fetch_unknown hf
      hcell.elim (Int.not_lt.2 h0) hclass
    simp only [step, setPolicy_status]
    cases s.status with
    | running => exact sameButPolicy_cycle hknown
    | halted | faulted => exact sameButPolicy_next s

/-- Settles O60: the ends of each of the four meanings; none has a destination. -/
theorem frameSystem : Obligations.FrameSystem := by
  intro p1 raw s t
  refine ⟨fun h => ⟨?_, exec_cell_of_no_dest h rfl⟩, fun h => ⟨?_, exec_cell_of_no_dest h rfl⟩,
    fun h => ⟨?_, exec_cell_of_no_dest h rfl⟩, fun h => ⟨?_, exec_cell_of_no_dest h rfl⟩⟩
  · obtain ⟨a, -, rfl⟩ | ⟨v, -, ⟨-, rfl⟩ | ⟨-, rfl⟩⟩ := execArb_next h
    · exact .inr (faultTaken_raise (by simp) a)
    · exact .inr (faultTaken_raise (by simp) _)
    · exact .inl rfl
  · obtain rfl := execHalt_next h
    rfl
  · obtain ⟨-, rfl⟩ | ⟨-, rfl⟩ := execUnknown_next h
    · exact .inl rfl
    · exact .inr (faultTaken_raise (by simp) raw)
  · obtain rfl := execNegative_next h
    exact faultTaken_raise (by simp) raw

end

section
/-!
SUPPORT. The host's reads (spec/50_interfaces.md R127).
-/
namespace Sys2Proof.Machine

open Sys2Proof

variable {s : State}

theorem hostRead_of_running (h : s.status = .running) (q : HostQuery) : hostRead q s = none := by
  simp only [hostRead, h]

/-- R15: the codes of the two run states in which a run has ended. -/
theorem Status.code_of_ended {st : Status} (h : st ≠ .running) :
    (st.code : Int) = if st = .halted then 1 else 2 := by
  cases st with
  | running => exact absurd rfl h
  | halted | faulted => rfl

theorem hostRead_status_of_ended (h : s.status ≠ .running) :
    hostRead .status s = some (if s.status = .halted then 1 else 2) := by
  simp only [hostRead, Status.code_of_ended h]

end Sys2Proof.Machine
end

section

open Sys2Proof Sys2Proof.Machine

/-- Settles O4, by cases over the run state: a running engine answers nothing, and the two ends
differ in the code of their status alone. -/
theorem hostReadsAfterTheEnd : Obligations.HostReadsAfterTheEnd := by
  refine fun s a => ⟨hostRead_of_running, fun hend => ⟨hostRead_status_of_ended hend, ?_⟩⟩
  cases hs : s.status with
  | running => exact absurd hs hend
  | halted | faulted => simp only [hostRead, hs, and_self]

end

section
/-!
SUPPORT. The faults a cycle takes where it stands: the addresses in the order of R151, and a result
out of range (spec/60_exceptions.md R142, R147, R151).
-/
namespace Sys2Proof.Machine

open Sys2Proof

variable {s : State} {i : Instr} {p p1 p2 p3 : Param}

/-! ## Addresses -/

theorem withDest_of_some {d : Int} (k : Int → Result) (h : destAddress s p = some d) :
    withDest s i p k = k d := by
  simp only [withDest, h]

/-- Format RRW with a destination that has an address resolves operand 1, operand 2 and then tests
that address (R80, R151 lines 5 to 7). -/
theorem withRRW_of_dest {d : Int} (k : Int → Int → Int → Result) (h : destAddress s p3 = some d) :
    withRRW s i p1 p2 p3 k =
      withOperand s p1 fun o1 => withOperand s p2 fun o2 => withValidAddress s d (k o1 o2 d) :=
  withDest_of_some _ h

/-- ADD, MUL, LT and EQ resolve format RRW before anything else. -/
theorem exec_rrw_resolves (s : State)
    (hi : i ∈ [Instr.add p1 p2 p3, .mul p1 p2 p3, .lt p1 p2 p3, .eq p1 p2 p3]) :
    ∃ k, exec i s = withRRW s i p1 p2 p3 k := by
  simp only [List.mem_cons, List.not_mem_nil, or_false] at hi
  obtain rfl | rfl | rfl | rfl := hi <;> exact ⟨_, rfl⟩

/-! ## Range -/

theorem fits_eq_false_iff {v : Int} :
    s.fits v = false ↔
      ∃ n, s.cfg.cellBits = some n ∧ (v < -(2 ^ (n - 1) : Int) ∨ (2 ^ (n - 1) : Int) ≤ v) := by
  unfold State.fits
  cases s.cfg.cellBits with
  | none => simp
  | some n => simp [imp_iff_not_or]

/-- Every value fits the unbounded machine (R92). -/
theorem cellBits_ne_none_of_unfit {v : Int} (h : s.fits v = false) : s.cfg.cellBits ≠ none := by
  obtain ⟨n, hn, -⟩ := fits_eq_false_iff.1 h
  simp [hn]

theorem withFit_of_unfit {c : OpClass} {v : Int} (k : Result) (h : s.fits v = false) :
    withFit s c v k = .next (s.raise .arithmeticOverflow (c.code : Int)) :=
  if_neg (by simp [h])

/-- Format RRW on resolved parameters faults when the range test its effect begins with fails. -/
theorem withRRW_overflows {v : Int → Int → Int} {c : OpClass} {k : Int → Int → Int → Result}
    (h1 : readable s p1 = true) (h2 : readable s p2 = true) (h3 : writable s p3 = true)
    (hv : s.fits (v (operandValue s p1) (operandValue s p2)) = false) :
    FaultsWith s (withRRW s i p1 p2 p3 fun o1 o2 d => withFit s c (v o1 o2) (k o1 o2 d))
      .arithmeticOverflow (c.code : Int) := by
  obtain ⟨d, -, -, hrun⟩ := withRRW_of_resolved (i := i)
    (fun o1 o2 d => withFit s c (v o1 o2) (k o1 o2 d)) h1 h2 h3
  rw [hrun, withFit_of_unfit _ hv]
  exact faultsWith_raise s .arithmeticOverflow _

end Sys2Proof.Machine
end

section

open Sys2Proof Sys2Proof.Machine

/-- Settles O39: the four share format RRW's resolution, whose tests stand in the order of R151. -/
theorem addressFaultOrder : Obligations.AddressFaultOrder := by
  intro p1 p2 p3 s i d hi hd
  obtain ⟨k, hk⟩ := exec_rrw_resolves s hi
  rw [hk, withRRW_of_dest k hd]
  refine ⟨fun a he => ?_, fun a h1 he => ?_, fun h1 h2 hneg => ?_⟩
  · rw [withOperand_of_error _ he]
    exact faultsWith_raise s .invalidAddress a
  · rw [withOperand_of_readable _ h1, withOperand_of_error _ he]
    exact faultsWith_raise s .invalidAddress a
  · rw [withOperand_of_readable _ h1, withOperand_of_readable _ h2, withValidAddress_of_neg _ hneg]
    exact faultsWith_raise s .invalidAddress d

/-- Settles O40: each of the three meanings begins with the one resolution that faults. -/
theorem oneParameterAddressFaults : Obligations.OneParameterAddressFaults := by
  intro p1 s a
  have hfault := faultsWith_raise s .invalidAddress a
  refine ⟨fun he => ⟨?_, ?_⟩, fun hd hneg => ?_⟩
  · rwa [exec, execOut, withOperand_of_error _ he]
  · rwa [exec, execArb, withOperand_of_error _ he]
  · rwa [exec, execIn, withDest_of_some _ hd, withValidAddress_of_neg _ hneg]

end

section
/-!
SUPPORT. `Reset(Program)`: which programs are refused, and what the store of a loaded program holds
(spec/70_reset_and_hazards.md R170; spec/10_state.md R24; spec/60_exceptions.md R147).
-/
namespace Sys2Proof.Machine

open Sys2Proof

variable {s t : State} {program : List Int}

/-! ## The loaded store -/

/-- The list of a program's cells reads as the program, and 0 past its end. -/
theorem lookupCell_program (a k : Nat) (l : List Int) :
    lookupCell (a + k) (programCells a l) = l.getD k 0 := by
  induction l generalizing a k with
  | nil => rfl
  | cons v l ih =>
    have htail (k : Nat) : lookupCell (a + (k + 1)) (programCells (a + 1) l) = l.getD k 0 := by
      rw [← ih (a + 1) k, Nat.add_right_comm]
      rfl
    by_cases hv : v = 0
    · rw [programCells, if_pos hv]
      cases k with
      | zero => exact (lookupCell_below (cellsOk_program (a + 1) l) a.lt_succ_self).trans hv.symm
      | succ k => exact htail k
    · rw [programCells, if_neg hv]
      cases k with
      | zero => exact lookupCell_head a v _
      | succ k => rw [lookupCell, if_neg (by omega)]; exact htail k

theorem Memory.cell_ofProgram (program : List Int) (a : Nat) :
    (Memory.ofProgram program).cell a = program.getD a 0 := by
  have h := lookupCell_program 0 a program
  rwa [Nat.zero_add] at h

/-! ## What is refused -/

theorem fitsProgram_iff : s.fitsProgram program = true ↔ ∀ v ∈ program, s.fits v = true :=
  List.all_eq_true

theorem allowsProgram_iff {n : Nat} :
    s.allowsProgram n = true ↔ ∀ cap, s.cfg.memCap = some cap → n ≤ cap := by
  unfold State.allowsProgram
  cases s.cfg.memCap <;> simp

/-- A program that fits and stays below the cap is loaded (R170). -/
theorem hostReset_of_allowed (hfit : s.fitsProgram program = true)
    (hcap : s.allowsProgram program.length = true) :
    hostReset program s = .next (.loaded s.cfg s.input s.output program) := by
  rw [hostReset, if_pos hfit, if_pos hcap]

/-- A program with a cell out of range is refused (R147). -/
theorem hostReset_of_unfit (h : s.fitsProgram program = false) :
    hostReset program s = .refused .programOutOfRange := by
  simp [hostReset, h]

/-- A `Reset` that answers loads the program, which fits and stays below the cap. -/
theorem hostReset_next (h : hostReset program s = .next t) :
    s.fitsProgram program = true ∧ s.allowsProgram program.length = true ∧
      t = .loaded s.cfg s.input s.output program := by
  unfold hostReset at h
  split at h
  · next hfit =>
    split at h
    · next hcap => exact ⟨hfit, hcap, (Host.Outcome.next.inj h).symm⟩
    · cases h
  · cases h

/-- `Reset` reads nothing of a state but the parameters and the ports (R131, log entry 18). -/
theorem hostReset_congr {s' : State} (hcfg : s'.cfg = s.cfg) (hin : s'.input = s.input)
    (hout : s'.output = s.output) : hostReset program s' = hostReset program s := by
  cases s
  cases s'
  subst hcfg hin hout
  rfl

/-- Every cell of a program that fits is in range, those past its end too: they read 0. -/
theorem fits_cell_ofProgram (hcfg : s.cfg.wf = true) (hfit : s.fitsProgram program = true)
    (a : Nat) : s.fits ((Memory.ofProgram program).cell a) = true := by
  rw [Memory.cell_ofProgram, List.getD_eq_getElem?_getD]
  cases ha : program[a]? with
  | none => exact fits_of_truth hcfg (.inl rfl)
  | some v => exact fitsProgram_iff.1 hfit v (List.mem_of_getElem? ha)

end Sys2Proof.Machine
end

section

open Sys2Proof Sys2Proof.Machine

/-- Settles O43: each meaning comes to its range test on resolved parameters, IN after its look at
the port, and `Reset` tests every cell. -/
theorem overflowFaults : Obligations.OverflowFaults := by
  refine ⟨fun s v => fits_eq_false_iff, fun p1 p2 p3 s h1 h2 h3 => ⟨fun hv => ?_, fun hv => ?_⟩,
    fun p1 s hr hv => ?_, fun p1 s v hw hx hv => ?_, fun program s ⟨v, hmem, hv⟩ => ?_⟩
  · exact withRRW_overflows (c := .add) (v := (· + ·)) h1 h2 h3 hv
  · exact withRRW_overflows (c := .mul) (v := (· * ·)) h1 h2 h3 hv
  · rw [exec, execArb, withOperand_of_readable _ hr, withFit_of_unfit _ hv]
    exact faultsWith_raise s .arithmeticOverflow 9
  · rw [exec_inp_of_answer hw hx (.inr hv), State.received_of_unfit _ hv]
    exact faultsWith_raise _ .arithmeticOverflow 3
  · refine hostReset_of_unfit (Bool.not_eq_true _ ▸ fun hfit => ?_)
    simp [fitsProgram_iff.1 hfit v hmem] at hv

/-- Settles O1: the program is loaded, its store reads as the program, and no more of the old state
is read than the parameters and the ports. -/
theorem resetLoadsProgram : Obligations.ResetLoadsProgram := by
  intro program s hfit hcap
  have hload := hostReset_of_allowed hfit (allowsProgram_iff.2 hcap)
  refine ⟨_, hload, rfl, fun a v hv => ?_,
    fun a ha => Memory.cell_beyond (Memory.wf_ofProgram program) ha, rfl, rfl, rfl, rfl, rfl, rfl, rfl, fun s' hcfg hin hout => ?_⟩
  · exact (Memory.cell_ofProgram program a).trans (by simp [hv])
  · exact (hostReset_congr hcfg hin hout).trans hload

/-- Settles O55: a loaded state is idle with a canonical store, whose cells and length are those of
a program that passed both tests of `Reset`. -/
theorem loadedMeetsInvariants : Obligations.LoadedMeetsInvariants := by
  intro program s t hcfg h
  obtain ⟨hfit, hcap, rfl⟩ := hostReset_next h
  exact ⟨consistent_of_idle (Memory.wf_ofProgram program) (by simp [State.loaded]) rfl rfl rfl,
    ⟨hcfg, fits_of_truth hcfg (.inl rfl), fits_cell_ofProgram hcfg hfit⟩, allowsProgram_iff.1 hcap⟩

end

section
/-!
SUPPORT. The run over a store of zeros (spec/70_reset_and_hazards.md R173, R178).
-/
namespace Sys2Proof.Machine

open Sys2Proof

variable {s t : State}

/-- `s` after `k` cells of value 0 from `pc` on have been reported and skipped. -/
def State.skippedZeros (s : State) (k : Nat) : State :=
  { s with
    pc := s.pc + k
    events := s.events ++ (List.range k).map fun j => .report (s.pc + j) 0 }

@[simp] theorem State.skippedZeros_zero (s : State) : s.skippedZeros 0 = s := by
  simp [State.skippedZeros]

/-- Skipping one cell and then `k` more is skipping `k + 1`. -/
theorem State.skippedZeros_skippedZeros (s : State) (k : Nat) :
    (s.skippedZeros 1).skippedZeros k = s.skippedZeros (k + 1) := by
  have hadd (j : Nat) : s.pc + 1 + j = s.pc + (j + 1) := by omega
  simp [State.skippedZeros, List.range_succ_eq_map, hadd]

/-- One step over a cell of 0 under policy SKIP (R117, R173). -/
theorem step_of_zero (hr : s.status = .running) (hskip : s.cfg.unknownPolicy = .skip)
    (h0 : s.mem.cell s.pc = 0) : step s = .next (s.skippedZeros 1) := by
  rw [unknownIsSkipped.2 s hr hskip (by omega) (by rw [h0]; decide), h0]
  rfl

theorem core_run_succ_of_next (k : Nat) (h : step s = .next t) :
    Sys2Proof.core.run (k + 1) s = Sys2Proof.core.run k t := by
  have hcore : Sys2Proof.core.step s = .next t := h
  simp only [Host.Core.run, hcore]

end Sys2Proof.Machine
end

section

open Sys2Proof Sys2Proof.Machine

/-- Settles O3, by induction on the number of steps: one step skips one cell and leaves the rest of
the store as it was. -/
theorem skipsZerosForEver : Obligations.SkipsZerosForEver := by
  intro s k hr hskip hzero
  change Sys2Proof.core.run k s = .next (s.skippedZeros k)
  induction k generalizing s with
  | zero => rw [State.skippedZeros_zero]; rfl
  | succ k ih =>
    rw [core_run_succ_of_next k (step_of_zero hr hskip (hzero s.pc (Nat.le_refl _))),
      ih (s.skippedZeros 1) hr hskip fun a ha => hzero a (Nat.le_of_succ_le ha),
      State.skippedZeros_skippedZeros]

end

section
/-!
SUPPORT. Every fault of a step, over every instruction: what it leaves (spec/60_exceptions.md R141)
and which cell can raise it (R149).
-/
namespace Sys2Proof.Machine

open Sys2Proof

variable {s t : State} {i : Instr} {c : OpClass} {f : FaultCause}

/-! ## What a fault leaves -/

theorem FaultTaken.leaves (h : FaultTaken s t) :
    t.mem = s.mem ∧ t.pc = s.pc ∧ t.rb = s.rb ∧ t.events = s.events ∧ t.cfg = s.cfg ∧
      t.cause ≠ .none ∧ t.input = s.input ∧ t.output = s.output := by
  obtain ⟨ht, hc⟩ := h
  exact ht ▸ ⟨rfl, rfl, rfl, rfl, rfl, hc, rfl, rfl⟩

/-- The two faults that come after a look at a port: the port's own (R146), and IN's overflow
(R147). -/
def AfterPort (t : State) : Prop :=
  t.cause = .portFailure ∨ (t.cause = .arithmeticOverflow ∧ t.info = 3)

/-- A fault is taken in the state the cycle began in or after one look at a port. -/
def FaultOrigin (s t : State) : Prop :=
  FaultTaken s t ∨
    ((FaultTaken (s.sawInput none) t ∨ FaultTaken (s.sawOutput none) t) ∧ AfterPort t)

theorem Ran.faultOrigin (h : Ran s i t) (hr : s.status = .running) (hf : t.status = .faulted) :
    FaultOrigin s t := by
  cases h with
  | parameterFault f a hpar => exact .inl (faultTaken_of_parameter hpar a)
  | overflow | unknownFault | negativeFault => exact .inl (faultTaken_raise (by simp) _)
  | inputFailed => exact .inr ⟨.inl (faultTaken_raise (by simp) _), .inl rfl⟩
  | inputOverflow => exact .inr ⟨.inl (faultTaken_raise (by simp) _), .inr ⟨rfl, rfl⟩⟩
  | outputFailed => exact .inr ⟨.inr (faultTaken_raise (by simp) _), .inl rfl⟩
  | stored | inputHeld | inputStored | outputHeld | outputTaken | jumped | passed | rebased
  | halted | skipped => simp [hr] at hf

/-- The decoder's fault is taken where the cycle began (R75). -/
theorem step_faultOrigin (hr : s.status = .running) (h : step s = .next t)
    (hf : t.status = .faulted) : FaultOrigin s t := by
  obtain ⟨i, -, h⟩ | ⟨e, -, rfl⟩ := cycle_next (step_running hr ▸ h)
  · exact (exec_ran h).faultOrigin hr hf
  · obtain ⟨c, a, hc, heq⟩ := raiseDecode_eq_raise s e
    exact .inl (heq ▸ faultTaken_raise hc a)

/-! ## The table of R149 -/

theorem invalidAddress_mem_classFaults : .invalidAddress ∈ classFaults c ↔ c ≠ .halt := by
  cases c <;> decide

theorem invalidMode_mem_classFaults : .invalidMode ∈ classFaults c ↔ 1 ≤ c.arity := by
  cases c <;> decide

theorem immediateDestination_mem_classFaults :
    .immediateDestination ∈ classFaults c ↔ c.writes = true := by
  cases c <;> decide

theorem arithmeticOverflow_mem_classFaults :
    .arithmeticOverflow ∈ classFaults c ↔ c ∈ [OpClass.add, .mul, .arb] ∨ c = .inp := by
  cases c <;> decide

theorem portFailure_mem_classFaults : .portFailure ∈ classFaults c ↔ classPort c ≠ none := by
  cases c <;> decide

theorem negativeInstruction_notMem_classFaults : .negativeInstruction ∉ classFaults c := by
  cases c <;> decide

theorem unknownOpcode_notMem_classFaults : .unknownOpcode ∉ classFaults c := by
  cases c <;> decide

theorem cellFaults_of_neg {raw : Int} (h : raw < 0) : cellFaults raw = [.negativeInstruction] :=
  if_pos h

theorem cellFaults_of_class {raw : Int} (h0 : 0 ≤ raw)
    (hc : OpClass.ofCode (raw.toNat % 100) = some c) : cellFaults raw = classFaults c := by
  simp only [cellFaults, if_neg (Int.not_lt.2 h0), hc]

theorem cellFaults_of_unknown {raw : Int} (h0 : 0 ≤ raw) (h : raw.toNat % 100 ∉ knownClasses) :
    cellFaults raw = [.unknownOpcode] := by
  simp only [cellFaults, if_neg (Int.not_lt.2 h0), (OpClass.ofCode_eq_none_iff _).2 h]

theorem negativeInstruction_mem_cellFaults {raw : Int} :
    .negativeInstruction ∈ cellFaults raw ↔ raw < 0 := by
  refine ⟨fun h => Int.not_le.1 fun h0 => ?_, fun h => by simp [cellFaults_of_neg h]⟩
  cases hc : OpClass.ofCode (raw.toNat % 100) with
  | none => simp [cellFaults_of_unknown h0 ((OpClass.ofCode_eq_none_iff _).1 hc)] at h
  | some c => exact negativeInstruction_notMem_classFaults (cellFaults_of_class h0 hc ▸ h)

/-! ## Which cell can raise a fault -/

/-- The fault `f` is one that R149 gives the cell at `pc`, in a build and under a policy that have
it. -/
def Raisable (s : State) (f : FaultCause) : Prop :=
  f ∈ cellFaults (s.mem.cell s.pc) ∧ (f = .arithmeticOverflow → s.cfg.cellBits ≠ none) ∧
    (f = .unknownOpcode → s.cfg.unknownPolicy = .fault)

/-- A cell fetched as negative is the one at `pc`, and is negative (R63). -/
theorem fetch_negative {raw : Int} (h : s.fetch = .ok (.negative raw)) :
    raw = s.mem.cell s.pc ∧ s.mem.cell s.pc < 0 := by
  obtain ⟨hneg, hi⟩ | ⟨-, -, hi⟩ | ⟨c, -, -, hi⟩ := decode_ok h
  · exact ⟨Instr.negative.inj hi, hneg⟩
  · cases hi
  · cases hi

theorem cellFaults_of_fetch (hi : s.fetch = .ok i) (hc : i.opClass = some c) :
    cellFaults (s.mem.cell s.pc) = classFaults c := by
  obtain ⟨h0, hcode⟩ := (fetch_opClass_iff hi c).1 hc
  exact cellFaults_of_class h0 (ofCode_eq_some_iff.2 hcode)

/-- A fault of the class of the cell at `pc` is raisable, an overflow in a finite build only. -/
theorem raisable_of_class (hcell : cellFaults (s.mem.cell s.pc) = classFaults c)
    (hmem : f ∈ classFaults c) (ho : f = .arithmeticOverflow → s.cfg.cellBits ≠ none) :
    Raisable s f :=
  ⟨hcell ▸ hmem, ho, fun hu => absurd (hu ▸ hmem) unknownOpcode_notMem_classFaults⟩

/-- Every fault of a fetched instruction is one of its class, or that of an unknown or a negative
cell. -/
theorem Ran.raisable (h : Ran s i t) (hi : s.fetch = .ok i) (hr : s.status = .running)
    (hf : t.status = .faulted) : Raisable s t.cause := by
  cases h with
  | parameterFault f a hpar hhalt hclass =>
    obtain ⟨-, p, hp, hnone⟩ | rfl := hpar
    · exact absurd hnone (destAddress_ne_none_of_wf (wf_of_decode hi) hp)
    · obtain ⟨c, hc⟩ := Option.ne_none_iff_exists'.1 hclass
      have hne : c ≠ .halt := fun hch => hhalt (opClass_eq_halt_iff.1 (hch ▸ hc))
      exact raisable_of_class (cellFaults_of_fetch hi hc) (invalidAddress_mem_classFaults.2 hne)
        (by simp)
  | overflow c v hc hm hv =>
    exact raisable_of_class (cellFaults_of_fetch hi hc)
      (arithmeticOverflow_mem_classFaults.2 (.inl hm)) fun _ => cellBits_ne_none_of_unfit hv
  | inputOverflow p v hp _ hv =>
    exact raisable_of_class (cellFaults_of_fetch (c := .inp) hi (hp ▸ rfl))
      (arithmeticOverflow_mem_classFaults.2 (.inr rfl)) fun _ => cellBits_ne_none_of_unfit hv
  | inputFailed p hp =>
    exact raisable_of_class (cellFaults_of_fetch (c := .inp) hi (hp ▸ rfl))
      (portFailure_mem_classFaults.2 (by decide)) (by simp)
  | outputFailed p v hp =>
    exact raisable_of_class (cellFaults_of_fetch (c := .out) hi (hp ▸ rfl))
      (portFailure_mem_classFaults.2 (by decide)) (by simp)
  | unknownFault raw hraw hpol =>
    obtain ⟨-, h0, hclass⟩ := fetch_unknown (hraw ▸ hi)
    exact ⟨by simp [cellFaults_of_unknown h0 hclass], by simp, fun _ => hpol⟩
  | negativeFault raw hraw =>
    obtain ⟨-, hneg⟩ := fetch_negative (hraw ▸ hi)
    exact ⟨negativeInstruction_mem_cellFaults.2 hneg, by simp, by simp⟩
  | stored | inputHeld | inputStored | outputHeld | outputTaken | jumped | passed | rebased
  | halted | skipped => simp [hr] at hf

/-- The decoder's fault is one the class of the refused cell has (R61, R62). -/
theorem raisable_of_fetch_error {e : DecodeError} (he : s.fetch = .error e) :
    Raisable s (s.raiseDecode e).cause := by
  obtain ⟨c, h0, hc, harity, rfl | ⟨hw, rfl⟩⟩ := decode_error he
  · exact raisable_of_class (f := .invalidMode) (cellFaults_of_class h0 hc)
      (invalidMode_mem_classFaults.2 harity) (by simp)
  · exact raisable_of_class (f := .immediateDestination) (cellFaults_of_class h0 hc)
      (immediateDestination_mem_classFaults.2 hw) (by simp)

end Sys2Proof.Machine
end

section

open Sys2Proof Sys2Proof.Machine

/-- Settles O44: a fault is taken in the state the cycle began in, or after one look at a port and
then with one of the two causes that come after it. -/
theorem faultLeavesState : Obligations.FaultLeavesState := by
  intro s t hr h hf
  obtain hown | ⟨hport, hcause⟩ := step_faultOrigin hr h hf
  · obtain ⟨hmem, hpc, hrb, hev, hcfg, hc, hin, hout⟩ := hown.leaves
    exact ⟨hmem, hpc, hrb, hev, hcfg, hc, fun _ _ => ⟨hin, hout⟩⟩
  · have hports (hne : t.cause ≠ .portFailure)
        (hno : ¬(t.cause = .arithmeticOverflow ∧ t.info = 3)) :
        t.input = s.input ∧ t.output = s.output :=
      absurd hcause (not_or.2 ⟨hne, hno⟩)
    obtain hlook | hlook := hport
    all_goals
      obtain ⟨hmem, hpc, hrb, hev, hcfg, hc, -⟩ := hlook.leaves
      exact ⟨hmem, hpc, hrb, hev, hcfg, hc, hports⟩

/-- Settles O45: what was fetched has the class of the cell at `pc`, and each end of its cycle that
faults has a cause of that class. -/
theorem faultsByClass : Obligations.FaultsByClass := by
  intro s t hr h hf
  obtain ⟨i, hi, h⟩ | ⟨e, he, rfl⟩ := cycle_next (step_running hr ▸ h)
  · exact (exec_ran h).raisable hi hr hf
  · exact raisable_of_fetch_error he

/-- Settles O36: a negative cell is fetched as one, and R149's table gives the cause to no other
cell. -/
theorem negativeCellFaults : Obligations.NegativeCellFaults := by
  refine ⟨fun raw s => faultsWith_raise s .negativeInstruction raw, fun s hr hneg => ?_,
    fun s t hr h0 h hf hcause => ?_⟩
  · rw [step_of_fetch hr (decode_of_neg hneg)]
    exact faultsWith_raise s .negativeInstruction _
  · have hmem := hcause ▸ (faultsByClass s t hr h hf).1
    exact Int.not_lt.2 h0 (negativeInstruction_mem_cellFaults.1 hmem)

end
